-- ==== Sys2Proof/Word.lean ====
section
/-! DEFINITION. The word types of the machine. Every value is unsigned (00_scope R6). -/

namespace Sys2Proof

/-- A general register, a memory location, a timer (10_state R20, R26, R29). -/
abbrev Byte := BitVec 8

/-- The address register, the program counter, a stack entry, an instruction word (10_state R22, R23, R25, 30_encoding R90). -/
abbrev Word := BitVec 16

/-- A 4-bit field: the count `N`, the family `OP` (30_encoding R91). -/
abbrev Nibble := BitVec 4

/-- A 4-bit register index, field `X` or `Y`: all sixteen values are legal (30_encoding R92). -/
abbrev RegIdx := BitVec 4

/-- A 12-bit address, field `NNN` (30_encoding R91). -/
abbrev Addr12 := BitVec 12

end Sys2Proof
end

