-- ==== Sys2Proof/Config.lean ====
section
/-! DEFINITION. The parameters of the hardware (00_scope R5) and the free values. -/

namespace Sys2Proof

/-- `MEM_SIZE`: 4096 bytes (00_scope R5). -/
abbrev Config.memSize : Nat := 4096

/-- `PROGRAM_BASE`, also the reset vector (00_scope R5, 10_state R36). -/
abbrev Config.programBase : Nat := 0x200

/-- `MAX_IMAGE`: `0x1000 - 0x200` bytes (00_scope R5, 20_memory R76). -/
abbrev Config.maxImage : Nat := 3584

/-- `GLYPH_BASE` (00_scope R5). -/
abbrev Config.glyphBase : Nat := 0x050

/-- `GLYPH_STRIDE`: bytes per glyph (00_scope R5, the spec's general knowledge, 92 D21; log 2). -/
abbrev Config.glyphStride : Nat := 5

/-- `GLYPH_COUNT` (00_scope R5, 92 D21; log 2). -/
abbrev Config.glyphCount : Nat := 16

/-- The 80-byte table of 20_memory R62, the default of the parameter `GLYPH_ROM`: the digits 0 to F in order, five bytes
each, top row first (the spec's general knowledge, 92 D21, 93 U8; log 2). -/
def Config.defaultGlyphRom : List Byte :=
  [ 0xF0, 0x90, 0x90, 0x90, 0xF0,
    0x20, 0x60, 0x20, 0x20, 0x70,
    0xF0, 0x10, 0xF0, 0x80, 0xF0,
    0xF0, 0x10, 0xF0, 0x10, 0xF0,
    0x90, 0x90, 0xF0, 0x10, 0x10,
    0xF0, 0x80, 0xF0, 0x10, 0xF0,
    0xF0, 0x80, 0xF0, 0x90, 0xF0,
    0xF0, 0x10, 0x20, 0x40, 0x40 ] ++
  [ 0xF0, 0x90, 0xF0, 0x90, 0xF0,
    0xF0, 0x90, 0xF0, 0x10, 0xF0,
    0xF0, 0x90, 0xF0, 0x90, 0x90,
    0xE0, 0x90, 0xE0, 0x90, 0xE0,
    0xF0, 0x80, 0x80, 0x80, 0xF0,
    0xE0, 0x90, 0x90, 0x90, 0xE0,
    0xF0, 0x80, 0xF0, 0x80, 0xF0,
    0xF0, 0x80, 0xF0, 0x80, 0x80 ]

/-- `GLYPH_ROM`: the parameter, at its default (00_scope R5, 92 D21, 93 U8; log 2). `Memory.initial` reads the glyph bytes
from this field and nowhere else; a claim about glyph pixels rests on `Config.defaultGlyphRom` by name. -/
abbrev Config.glyphRom : List Byte := Config.defaultGlyphRom

/-- `FLAG_REG`: the flag register is `x[0xF]` (10_state R21, 92 D31; log 12). -/
abbrev Config.flagReg : RegIdx := 0xF

/-- `PC_MAX`: the guard's bound on `pc` (00_scope R5, 40_flow R121). -/
abbrev Config.pcMax : Word := 0xFFF

/-- `I_MAX`: the guard's bound on `I` (00_scope R5, 92 D5). -/
abbrev Config.iMax : Word := 0xFFF

/-- `STACK_DEPTH`: the capacity of the call stack (00_scope R5), in the width of `SP`. -/
abbrev Config.stackDepth : BitVec 5 := 16

/-- `INSN_BYTES`: the length of every instruction (00_scope R5, 30_encoding R90). -/
abbrev Config.insnBytes : Word := 2

/-- The two values of the parameter `SHIFT_SOURCE` (92 D10, 93 U2). -/
inductive ShiftSource where
  /-- The shift reads `x[X]`, in place. -/
  | vx
  /-- The shift reads `x[Y]`: the alternative, not this hardware. -/
  | vy
  deriving DecidableEq, Repr

/-- `SHIFT_SOURCE`: this hardware shifts `x[X]` in place (41_alu R148, R150; log 9). -/
abbrev Config.shiftSource : ShiftSource := .vx

/-- `RANDOM_SOURCE`, the byte `draw()` gives: a FREE VALUE under no law, applied to the number of draws made before
it (10_state R34, 41_alu R151; log 3). It has no body, so nothing can be proved of its value. -/
opaque Config.draw : Nat → Byte

/-- `STEP_RATE_HZ`: OPEN (00_scope R5, 92 D23). No rule depends on it (70 R252; log 13). -/
opaque Config.stepRateHz : Nat

/-- `MAX_STEPS_PER_FRAME`: OPEN, a clamp of the host's (00_scope R5, 92 D23). No rule depends on it (log 13). -/
opaque Config.maxStepsPerFrame : Nat

/-- `TICK_HZ`: the host issues `Tick` at 60 Hz (00_scope R5). No rule depends on it: the model has no time (70 R252). -/
abbrev Config.tickHz : Nat := 60

end Sys2Proof
end

