-- ==== Sys2Proof/Machine/State.lean ====
section
/-! DEFINITION. The state of the machine: every piece the spec names (00_scope R7, 10_state R20 to R33), as plain data,
two fields of the model's own (`draws`, `warnings`), the reasons a step could stop, and the state after reset. -/

namespace Sys2Proof.Machine

/-- Memory: the cells whose byte differs from what an unlisted address reads as, by strictly rising address
(`Memory.wf`); what an unlisted address reads as is `Memory.initial`. -/
abbrev Memory := List Host.Cell

/-- What an `UnknownInstructionWarning` carries: the instruction word and the address it was fetched from
(60_exceptions R204). -/
structure Warning where
  /-- The unrecognized word. -/
  word : Word
  /-- The address it was fetched from. -/
  addr : Word
  deriving DecidableEq, Repr

/-- The three fatal errors and what each carries (60_exceptions R200). Raising one is a NEXT state (`State.raise`). -/
inductive FatalError where
  /-- Raised by the guard, the fetch and the memory accesses; carries the offending value. -/
  | memoryBounds (addr : Word)
  /-- Raised by CALL on a full stack and by the guard; carries `pc`. -/
  | stackOverflow (pc : Word)
  /-- Raised by RET on an empty stack; carries `pc`. -/
  | stackUnderflow (pc : Word)
  deriving DecidableEq, Repr

/-- The machine's state between events. -/
structure State where
  /-- The general registers `V0` to `VF` (R20); `x[0xF]` is the flag register (R21). -/
  x : Vector Byte 16
  /-- The address register `I` (R22). -/
  i : Word
  /-- The program counter (R23). -/
  pc : Word
  /-- The stack pointer, the number of return addresses on the stack, 0 to 16 (R24). -/
  sp : BitVec 5
  /-- The call stack (R25). -/
  stack : Vector Word 16
  /-- The delay timer (R26). -/
  dt : Byte
  /-- The sound timer (R27). -/
  st : Byte
  /-- The tone level driven to the audio collaborator (R28). -/
  tone : Bool
  /-- Memory, `0x000` to `0xFFF` (R29). -/
  mem : Memory
  /-- The framebuffer: 32 rows of 64 pixels, `true` is lit (R30). -/
  fb : Vector (Vector Bool 64) 32
  /-- The dirty flag (R31). -/
  dirty : Bool
  /-- The key latch: bit `k` is `keys[k]`, 1 is pressed (R32). -/
  keys : BitVec 16
  /-- The fatal latch: halted (R33). -/
  halted : Bool
  /-- The fatal latch: 0 none, 1 memory bounds, 2 stack overflow, 3 stack underflow (R33). -/
  errCode : BitVec 3
  /-- The fatal latch: the offending address, or `pc` (R33). -/
  errInfo : Word
  /-- The MODEL's own: how many random bytes have been drawn; the next draw is `Config.draw draws` (R34; log 3). -/
  draws : Nat
  /-- The MODEL's own: the warnings the steps have emitted on the report port, newest first. An output, which nothing
  in the machine reads (R204, 93 U4; log 4). -/
  warnings : List Warning
  deriving DecidableEq, Repr

/-- Why a step would stop with a fault. The fatal errors of the spec are not here: they are next states. -/
inductive Fault where
  /-- Raised by CALL (`execCall`) and RET (`execRet`) where the stack entry they name does not exist (`SP > 16`; there
  are sixteen entries, R25). SAFE: the model stops where the spec gives no effect, and no step reaches it, because the
  guard raises `StackOverflowError` first (40_flow R121; log 7). -/
  | noStackEntry (sp : BitVec 5)
  deriving DecidableEq, Repr

/-- Why a step would refuse. -/
inductive Refusal where
  /-- Raised by an arm of `exec` whose instruction has no meaning yet; there is none in this model. SAFE. -/
  | notModelled (mnemonic : String)
  deriving DecidableEq, Repr

/-- The state after `Reset` with an empty image (70_reset_and_hazards R240, 10_state R36 to R41): `pc` at the reset
vector and memory at its reset contents as the source says, `FB` and `SP` as the spec derives (R38, R39), the rest zero
by the spec's own decision (R40, 92 D3; log 1); `draws` and `warnings` are the model's own (logs 3, 4). -/
def State.reset : State where
  x := Vector.replicate 16 0
  i := 0
  pc := 0x200
  sp := 0
  stack := Vector.replicate 16 0
  dt := 0
  st := 0
  tone := false
  mem := []
  fb := Vector.replicate 32 (Vector.replicate 64 false)
  dirty := false
  keys := 0
  halted := false
  errCode := 0
  errInfo := 0
  draws := 0
  warnings := []

end Sys2Proof.Machine
end

