-- ==== Sys2Proof/Machine/Ops.lean ====
section
/-! DEFINITION. The named operations over registers, memory, the call stack, the framebuffer and the fatal latch. -/

namespace Sys2Proof.Machine

/-- What one step or one instruction answers. -/
abbrev Result := Host.Outcome State Fault Refusal

/-! Registers (10_state R20 to R27). -/

/-- `x[k]`. -/
def State.reg (s : State) (k : RegIdx) : Byte := s.x[k.toNat]'k.isLt

/-- `x[k] <- v`. No register is hardwired (R20). -/
def State.setReg (s : State) (k : RegIdx) (v : Byte) : State := { s with x := s.x.set k.toNat v k.isLt }

/-- `I <- v`. -/
def State.setI (s : State) (v : Word) : State := { s with i := v }

/-- `pc <- v`. -/
def State.setPc (s : State) (v : Word) : State := { s with pc := v }

/-- `DT <- v`. -/
def State.setDt (s : State) (v : Byte) : State := { s with dt := v }

/-- `ST <- v`. -/
def State.setSt (s : State) (v : Byte) : State := { s with st := v }

/-- `pc <- pc + 2`, the advance of the fetch and of a taken skip (40_flow R122, section 3). -/
def State.advance (s : State) : State := s.setPc (s.pc + Config.insnBytes)

/-- `pc <- pc - 2`, the rewind of block-until-key (44_keys_timers R192). -/
def State.rewind (s : State) : State := s.setPc (s.pc - Config.insnBytes)

/-- The flag register is written with a bit (10_state R21). -/
def State.setFlag (s : State) (flag : Bool) : State := s.setReg Config.flagReg (if flag then 1 else 0)

/-! The random byte (10_state R34). -/

/-- `draw()`: the byte of the next draw, a free value. -/
def State.nextDraw (s : State) : Byte := Config.draw s.draws

/-- A draw has been taken. -/
def State.countDraw (s : State) : State := { s with draws := s.draws + 1 }

/-! Memory (20_memory). -/

/-- Byte `a` of the reset contents of an empty image, for the glyph data `rom`: `rom` from `0x050` on and zero elsewhere
(10_state R37). -/
def resetByte (rom : List Byte) (a : Nat) : Byte :=
  if Config.glyphBase ≤ a then rom.getD (a - Config.glyphBase) 0 else 0

/-- What an unlisted address reads as: the reset contents of an empty image (10_state R37) for this hardware's
`GLYPH_ROM` (00_scope R5; log 2). -/
def Memory.initial (a : Nat) : Byte := resetByte Config.glyphRom a

/-- `Mem[a]`. -/
def Memory.read : Memory → Nat → Byte
  | [], a => Memory.initial a
  | (b, v) :: m, a => if a = b then v else Memory.read m a

/-- The cell `(a, v)` before the cells `m`, left out when an unlisted `a` reads as `v` anyway. -/
def Memory.cell (a : Nat) (v : Byte) (m : Memory) : Memory :=
  if v = Memory.initial a then m else (a, v) :: m

/-- `Mem[a] <- v`, keeping the canonical form. -/
def Memory.write : Memory → Nat → Byte → Memory
  | [], a, v => Memory.cell a v []
  | (b, w) :: m, a, v =>
    if a < b then Memory.cell a v ((b, w) :: m)
    else if a = b then Memory.cell a v m
    else (b, w) :: Memory.write m a v

/-- `Mem[a], Mem[a+1], … <- vs`, ascending. -/
def Memory.writeList : Memory → Nat → List Byte → Memory
  | m, _, [] => m
  | m, a, v :: vs => Memory.writeList (m.write a v) (a + 1) vs

/-- The cells lie at or above `lo`, rise strictly, stay inside memory and none holds what an unlisted address reads as. -/
def Memory.wfFrom (lo : Nat) : Memory → Bool
  | [] => true
  | (a, v) :: m => decide (lo ≤ a) && decide (a < Config.memSize) && (v != Memory.initial a) && Memory.wfFrom (a + 1) m

/-- The canonical form of memory. -/
def Memory.wf (m : Memory) : Bool := Memory.wfFrom 0 m

/-- `addr` is in bounds: `addr <= 0xFFF` (20_memory R63, R64). -/
def inBounds (addr : Word) : Bool := decide (addr.toNat < Config.memSize)

/-- `MemRead(addr, 1)`: the byte, or the error it raises (20_memory R63). -/
def memRead (s : State) (addr : Word) : Except FatalError Byte :=
  if inBounds addr then .ok (s.mem.read addr.toNat) else .error (.memoryBounds addr)

/-- `MemWrite(addr, 1, v)`: the state with the byte written, or the error it raises (20_memory R64). The reserved
region is written like any other (R68). -/
def memWrite (s : State) (addr : Word) (v : Byte) : Except FatalError State :=
  if inBounds addr then .ok { s with mem := s.mem.write addr.toNat v } else .error (.memoryBounds addr)

/-! The fatal latch and the warning (60_exceptions). -/

/-- The numeric code of a fatal error (60_exceptions R200, 92 D7). -/
def FatalError.code : FatalError → BitVec 3
  | .memoryBounds _ => 1
  | .stackOverflow _ => 2
  | .stackUnderflow _ => 3

/-- What `err_info` receives (60_exceptions R200). -/
def FatalError.info : FatalError → Word
  | .memoryBounds a => a
  | .stackOverflow p => p
  | .stackUnderflow p => p

/-- `raise E(info)`, the block's only trap entry: it sets the fatal latch and nothing else (60_exceptions R201). -/
def State.raise (s : State) (e : FatalError) : State :=
  { s with halted := true, errCode := e.code, errInfo := e.info }

/-- `warn UnknownInstruction(word, addr)`: the pair is emitted on the report port (60_exceptions R204). -/
def State.warn (s : State) (word addr : Word) : State := { s with warnings := ⟨word, addr⟩ :: s.warnings }

/-- How far the pseudocode of an instruction has come: it goes on, or a line has raised; either way with the effects
of the lines so far (60_exceptions R201, 92 D8). -/
inductive Progress where
  /-- Every line so far has run. -/
  | running (s : State)
  /-- A line has raised: no later line runs. -/
  | raised (e : FatalError) (s : State)
  deriving DecidableEq, Repr

/-- The later lines, run only if no line has raised. -/
def Progress.andThen : Progress → (State → State) → Progress
  | .running s, f => .running (f s)
  | .raised e s, _ => .raised e s

/-- The end of the pseudocode: a raised error sets the fatal latch (60_exceptions R201). -/
def Progress.finish : Progress → Result
  | .running s => .next s
  | .raised e s => .next (s.raise e)

/-- `MemWrite` of the bytes of a list at `addr`, `addr + 1`, …, ascending, up to the first that raises (20_memory R65). -/
def storeBytes : List Byte → Word → State → Progress
  | [], _, s => .running s
  | v :: vs, addr, s =>
    match memWrite s addr v with
    | .ok s' => storeBytes vs (addr + 1) s'
    | .error e => .raised e s

/-- `MemRead` of `n` bytes at `addr`, `addr + 1`, … into `x[k]`, `x[k+1]`, …, ascending, up to the first that raises
(20_memory R65). -/
def loadBytes : (n k : Nat) → Word → State → Progress
  | 0, _, _, s => .running s
  | n + 1, k, addr, s =>
    match memRead s addr with
    | .ok v => loadBytes n (k + 1) (addr + 1) (s.setReg (BitVec.ofNat 4 k) v)
    | .error e => .raised e s

/-! The call stack (10_state R24, R25, 92 D16). -/

/-- `stack[SP] <- v; SP <- SP + 1`, where the entry exists. -/
def State.push (s : State) (v : Word) : Option State :=
  if h : s.sp.toNat < 16 then some { s with stack := s.stack.set s.sp.toNat v h, sp := s.sp + 1 } else none

/-- `SP <- SP - 1` and the entry `stack[SP]` then on top, which keeps its value, where it exists. -/
def State.pop (s : State) : Option (Word × State) :=
  if h : (s.sp - 1).toNat < 16 then some (s.stack[(s.sp - 1).toNat]'h, { s with sp := s.sp - 1 }) else none

/-! The framebuffer (10_state R30, R31). -/

/-- `FB[r mod 32][c mod 64]`: coordinates wrap (43_display R181). -/
def State.pixel (s : State) (r c : Nat) : Bool :=
  (s.fb[r % 32]'(Nat.mod_lt _ (by decide)))[c % 64]'(Nat.mod_lt _ (by decide))

/-- `FB[r mod 32][c mod 64] <- b`. -/
def State.setPixel (s : State) (r c : Nat) (b : Bool) : State :=
  { s with
    fb := s.fb.set (r % 32)
      ((s.fb[r % 32]'(Nat.mod_lt _ (by decide))).set (c % 64) b (Nat.mod_lt _ (by decide)))
      (Nat.mod_lt _ (by decide)) }

/-- Every pixel is 0 (43_display R180). -/
def State.clearFb (s : State) : State := { s with fb := Vector.replicate 32 (Vector.replicate 64 false) }

/-- `dirty <- 1` (10_state R31). -/
def State.markDirty (s : State) : State := { s with dirty := true }

/-! The key latch (10_state R32). -/

/-- `keys[k] == 1`. -/
def State.key (s : State) (k : Nat) : Bool := s.keys.getLsbD k

end Sys2Proof.Machine
end

