-- ==== Sys2Proof/Machine/Operands.lean ====
section
/-! DEFINITION. Operand forms: what an instruction's fields stand for (30_encoding R92, 42_address_memory). -/

namespace Sys2Proof.Machine

/-- `zext_16(NNN)`: an address field where it meets `pc` or `I` (30_encoding R92). -/
def addressOperand (nnn : Addr12) : Word := nnn.setWidth 16

/-- `zext_16(x[X])`: a register where it is added to an address (40_flow R132, 42_address_memory R161). -/
def State.regWord (s : State) (x : RegIdx) : Word := (s.reg x).setWidth 16

/-- The operand of a shift: `x[X]` in place, by the parameter `SHIFT_SOURCE` (41_alu R148, R150; log 9). -/
def State.shiftOperand (s : State) (x y : RegIdx) : Byte :=
  match Config.shiftSource with
  | .vx => s.reg x
  | .vy => s.reg y

/-- The glyph address of a register's whole value, `0x0050 + x[X] * 5` (42_address_memory R162). -/
def State.glyphAddress (s : State) (x : RegIdx) : Word :=
  BitVec.ofNat 16 Config.glyphBase + s.regWord x * BitVec.ofNat 16 Config.glyphStride

/-- The key a register selects: its low nibble (44_keys_timers R190). -/
def State.keyOperand (s : State) (x : RegIdx) : Nat := ((s.reg x).extractLsb' 0 4).toNat

/-- The decimal digits of a byte: hundreds, tens, units (42_address_memory R163). -/
def decimalDigits (v : Byte) : List Byte := [v / 100, v / 10 % 10, v % 10]

/-- `x[0]` to `x[X]`, the registers of a block transfer (42_address_memory R164). -/
def State.regsUpTo (s : State) (x : RegIdx) : List Byte := s.x.toList.take (x.toNat + 1)

/-- `X + 1`, how far a block transfer moves `I` (42_address_memory R164, R165). -/
def blockLength (x : RegIdx) : Word := x.setWidth 16 + 1

/-- The lowest-indexed pressed key among `k`, `k + 1`, …, `k + n - 1` (44_keys_timers R192). -/
def State.pressedFrom (s : State) : (n k : Nat) → Option Nat
  | 0, _ => none
  | n + 1, k => if s.key k then some k else s.pressedFrom n (k + 1)

/-- The lowest-indexed pressed key of the latch, if any is pressed (44_keys_timers R192). -/
def State.lowestKey (s : State) : Option Nat := s.pressedFrom 16 0

end Sys2Proof.Machine
end

