-- ==== Sys2Proof/Machine/AddressMemory.lean ====
section
/-! DEFINITION. The address register, loads and stores (42_address_memory R160 to R165). None touches `pc`. -/

namespace Sys2Proof.Machine

/-- LD I, nnn (42_address_memory R160). -/
def execLdI (nnn : Addr12) (s : State) : Result := .next (s.setI (addressOperand nnn))

/-- ADD I, Vx (42_address_memory R161): a 16-bit add, no flag, no check in this step (40_flow R133). -/
def execAddI (x : RegIdx) (s : State) : Result := .next (s.setI (s.i + s.regWord x))

/-- LD F, Vx (42_address_memory R162): the whole register is multiplied, no mask. -/
def execLdF (x : RegIdx) (s : State) : Result := .next (s.setI (s.glyphAddress x))

/-- LD B, Vx (42_address_memory R163): the digits at `I`, `I + 1`, `I + 2`, `I` unchanged. -/
def execLdB (x : RegIdx) (s : State) : Result := (storeBytes (decimalDigits (s.reg x)) s.i s).finish

/-- LD [I], Vx (42_address_memory R164): `x[0]` to `x[X]` from `I` on, then `I` moves past them. -/
def execStRegs (x : RegIdx) (s : State) : Result :=
  ((storeBytes (s.regsUpTo x) s.i s).andThen fun t => t.setI (t.i + blockLength x)).finish

/-- LD Vx, [I] (42_address_memory R165): memory from `I` on into `x[0]` to `x[X]`, then `I` moves past them. -/
def execLdRegs (x : RegIdx) (s : State) : Result :=
  ((loadBytes (x.toNat + 1) 0 s.i s).andThen fun t => t.setI (t.i + blockLength x)).finish

end Sys2Proof.Machine
end

