-- ==== Sys2Proof/Machine/Flags.lean ====
section
/-! DEFINITION. The results and flags of the five flag-writing ALU operations (41_alu R146 to R150): each gives the byte
for `x[X]` and the bit for the flag register. -/

namespace Sys2Proof.Machine

/-- The 9-bit sum: its low byte, and bit 8, the carry out (41_alu R146). -/
def addCarry (a b : Byte) : Byte × Bool :=
  let sum : BitVec 9 := a.setWidth 9 + b.setWidth 9
  (sum.setWidth 8, sum.getLsbD 8)

/-- `a - b` modulo 256, and 1 for no borrow, `a >= b` (41_alu R147, R149). -/
def subNoBorrow (a b : Byte) : Byte × Bool := (a - b, decide (b.toNat ≤ a.toNat))

/-- `a >> 1`, logical, and the bit shifted out, `a[0]` (41_alu R148). -/
def shiftRightOne (a : Byte) : Byte × Bool := (a >>> 1, a.getLsbD 0)

/-- `a << 1`, and the bit shifted out, `a[7]` (41_alu R150). -/
def shiftLeftOne (a : Byte) : Byte × Bool := (a <<< 1, a.getLsbD 7)

/-- The result is written to `x[X]`, then the flag to `x[0xF]`, which therefore wins (41_alu R153, 92 D9). -/
def State.setResultFlag (s : State) (x : RegIdx) (r : Byte × Bool) : State := (s.setReg x r.1).setFlag r.2

end Sys2Proof.Machine
end

