-- ==== Sys2Proof/Machine/Alu.lean ====
section
/-! DEFINITION. Register loads, arithmetic and logic (41_alu R140 to R151). None touches `pc`. -/

namespace Sys2Proof.Machine

/-- LD Vx, nn (41_alu R140). -/
def execLdImm (x : RegIdx) (nn : Byte) (s : State) : Result := .next (s.setReg x nn)

/-- ADD Vx, nn (41_alu R141): modulo 256, no flag touched. -/
def execAddImm (x : RegIdx) (nn : Byte) (s : State) : Result := .next (s.setReg x (s.reg x + nn))

/-- LD Vx, Vy (41_alu R142). -/
def execLdReg (x y : RegIdx) (s : State) : Result := .next (s.setReg x (s.reg y))

/-- OR Vx, Vy (41_alu R143): the flag register is left alone. -/
def execOr (x y : RegIdx) (s : State) : Result := .next (s.setReg x (s.reg x ||| s.reg y))

/-- AND Vx, Vy (41_alu R144): the flag register is left alone. -/
def execAnd (x y : RegIdx) (s : State) : Result := .next (s.setReg x (s.reg x &&& s.reg y))

/-- XOR Vx, Vy (41_alu R145): the flag register is left alone. -/
def execXor (x y : RegIdx) (s : State) : Result := .next (s.setReg x (s.reg x ^^^ s.reg y))

/-- ADD Vx, Vy (41_alu R146, R153). -/
def execAddReg (x y : RegIdx) (s : State) : Result := .next (s.setResultFlag x (addCarry (s.reg x) (s.reg y)))

/-- SUB Vx, Vy: `Vx - Vy` (41_alu R147, R153). -/
def execSub (x y : RegIdx) (s : State) : Result := .next (s.setResultFlag x (subNoBorrow (s.reg x) (s.reg y)))

/-- SHR Vx (41_alu R148, R153). -/
def execShr (x y : RegIdx) (s : State) : Result := .next (s.setResultFlag x (shiftRightOne (s.shiftOperand x y)))

/-- SUBN Vx, Vy: `Vy - Vx` (41_alu R149, R153). -/
def execSubn (x y : RegIdx) (s : State) : Result := .next (s.setResultFlag x (subNoBorrow (s.reg y) (s.reg x)))

/-- SHL Vx (41_alu R150, R153). -/
def execShl (x y : RegIdx) (s : State) : Result := .next (s.setResultFlag x (shiftLeftOne (s.shiftOperand x y)))

/-- RND Vx, nn (41_alu R151): the draw is a free value (10_state R34; log 3). -/
def execRnd (x : RegIdx) (nn : Byte) (s : State) : Result := .next (s.countDraw.setReg x (s.nextDraw &&& nn))

end Sys2Proof.Machine
end

