-- ==== Sys2Proof/Machine/Display.lean ====
section
/-! DEFINITION. Display instructions (43_display R180, R181). Neither touches `pc`. -/

namespace Sys2Proof.Machine

/-- One sprite bit on one pixel: a 1 bit on a lit pixel sets the flag register to 1, and the pixel is XORed with the bit
(43_display R181). -/
def State.drawPixel (s : State) (r c : Nat) (bit : Bool) : State :=
  let lit := s.pixel r c
  (if bit && lit then s.setFlag true else s).setPixel r c (lit ^^ bit)

/-- Sprite bits `bit`, `bit + 1`, …, `bit + n - 1` of the byte `b`, bit 0 the most significant, on row `r` from column
`vx + bit` on (43_display R181). -/
def State.drawBits (b : Byte) (r vx : Nat) : (n bit : Nat) → State → State
  | 0, _, s => s
  | n + 1, bit, s => State.drawBits b r vx n (bit + 1) (s.drawPixel r (vx + bit) (b.getLsbD (7 - bit)))

/-- Sprite rows `row`, …, `row + n - 1`, each read from memory at `I + row`, up to the first that raises
(43_display R181). -/
def drawRows (vx vy : Nat) : (n row : Nat) → State → Progress
  | 0, _, s => .running s
  | n + 1, row, s =>
    match memRead s (s.i + BitVec.ofNat 16 row) with
    | .ok b => drawRows vx vy n (row + 1) (State.drawBits b (vy + row) vx 8 0 s)
    | .error e => .raised e s

/-- CLS (43_display R180). -/
def execCls (s : State) : Result := .next s.clearFb.markDirty

/-- DRW Vx, Vy, n (43_display R181): the origin is read first, the flag register cleared, the rows drawn, then `dirty`
set; `I` is unchanged. -/
def execDrw (x y : RegIdx) (n : Nibble) (s : State) : Result :=
  ((drawRows (s.reg x).toNat (s.reg y).toNat n.toNat 0 (s.setFlag false)).andThen State.markDirty).finish

end Sys2Proof.Machine
end

