-- ==== Sys2Proof/Machine/Flow.lean ====
section
/-! DEFINITION. Control flow (40_flow R125 to R132): return, jump, call, the four skips, jump-with-offset. When a meaning
runs, `pc` already holds the address of the instruction plus 2 (00_scope R11). -/

namespace Sys2Proof.Machine

/-- A skip: `pc` advances a second time when the condition holds (40_flow section 3). -/
def State.skipIf (s : State) (c : Bool) : State := if c then s.advance else s

/-- RET (40_flow R125). With `SP > 16` the entry on top does not exist (log 7). -/
def execRet (s : State) : Result :=
  if s.sp = 0 then (Progress.raised (.stackUnderflow s.pc) s).finish
  else
    match s.pop with
    | some (target, s') => .next (s'.setPc target)
    | none => .fault (.noStackEntry s.sp)

/-- JP nnn (40_flow R126). -/
def execJp (nnn : Addr12) (s : State) : Result := .next (s.setPc (addressOperand nnn))

/-- CALL nnn (40_flow R127): the return address is `pc` after the fetch's advance. With `SP > 16` the entry to write
does not exist (log 7). -/
def execCall (nnn : Addr12) (s : State) : Result :=
  if s.sp = Config.stackDepth then (Progress.raised (.stackOverflow s.pc) s).finish
  else
    match s.push s.pc with
    | some s' => .next (s'.setPc (addressOperand nnn))
    | none => .fault (.noStackEntry s.sp)

/-- SE Vx, nn (40_flow R128). -/
def execSeImm (x : RegIdx) (nn : Byte) (s : State) : Result := .next (s.skipIf (s.reg x == nn))

/-- SNE Vx, nn (40_flow R129). -/
def execSneImm (x : RegIdx) (nn : Byte) (s : State) : Result := .next (s.skipIf (s.reg x != nn))

/-- SE Vx, Vy (40_flow R130). -/
def execSeReg (x y : RegIdx) (s : State) : Result := .next (s.skipIf (s.reg x == s.reg y))

/-- SNE Vx, Vy (40_flow R131). -/
def execSneReg (x y : RegIdx) (s : State) : Result := .next (s.skipIf (s.reg x != s.reg y))

/-- JP Vx, nnn (40_flow R132): a 16-bit add, not masked to 12 bits. -/
def execJpVx (x : RegIdx) (nnn : Addr12) (s : State) : Result := .next (s.setPc (s.regWord x + addressOperand nnn))

end Sys2Proof.Machine
end

