-- ==== Sys2Proof/Machine/KeysTimers.lean ====
section
/-! DEFINITION. Key and timer instructions (44_keys_timers R190 to R195). -/

namespace Sys2Proof.Machine

/-- SKP Vx (44_keys_timers R190). -/
def execSkp (x : RegIdx) (s : State) : Result := .next (s.skipIf (s.key (s.keyOperand x)))

/-- SKNP Vx (44_keys_timers R191). -/
def execSknp (x : RegIdx) (s : State) : Result := .next (s.skipIf (!s.key (s.keyOperand x)))

/-- LD Vx, DT (44_keys_timers R193). -/
def execLdVxDt (x : RegIdx) (s : State) : Result := .next (s.setReg x s.dt)

/-- LD Vx, K (44_keys_timers R192): with no key pressed `pc` goes back to this instruction; else the lowest pressed key. -/
def execLdVxK (x : RegIdx) (s : State) : Result :=
  match s.lowestKey with
  | none => .next s.rewind
  | some k => .next (s.setReg x (BitVec.ofNat 8 k))

/-- LD DT, Vx (44_keys_timers R194). -/
def execLdDtVx (x : RegIdx) (s : State) : Result := .next (s.setDt (s.reg x))

/-- LD ST, Vx (44_keys_timers R195): `tone` is unchanged. -/
def execLdStVx (x : RegIdx) (s : State) : Result := .next (s.setSt (s.reg x))

end Sys2Proof.Machine
end

