-- ==== Sys2Proof/Syntax.lean ====
section
/-! DEFINITION. The instructions: one constructor per row of spec/opcode_table.json (30_encoding R94), in the
table's order, with the fields its format uses (R93). -/

namespace Sys2Proof

/-- An instruction. `x` and `y` are the fields `X` and `Y`, `n` is `N`, `nn` is `NN`, `nnn` is `NNN` (30_encoding R91). -/
inductive Instr where
  /-- `00E0` CLS, clear-screen (43_display R180). -/
  | cls
  /-- `00EE` RET, return (40_flow R125). -/
  | ret
  /-- `1NNN` JP nnn, jump (40_flow R126). -/
  | jp (nnn : Addr12)
  /-- `2NNN` CALL nnn, call (40_flow R127). -/
  | call (nnn : Addr12)
  /-- `3XNN` SE Vx, nn (40_flow R128). -/
  | seImm (x : RegIdx) (nn : Byte)
  /-- `4XNN` SNE Vx, nn (40_flow R129). -/
  | sneImm (x : RegIdx) (nn : Byte)
  /-- `5XY0` SE Vx, Vy (40_flow R130). -/
  | seReg (x y : RegIdx)
  /-- `6XNN` LD Vx, nn (41_alu R140). -/
  | ldImm (x : RegIdx) (nn : Byte)
  /-- `7XNN` ADD Vx, nn (41_alu R141). -/
  | addImm (x : RegIdx) (nn : Byte)
  /-- `8XY0` LD Vx, Vy, copy (41_alu R142). -/
  | ldReg (x y : RegIdx)
  /-- `8XY1` OR Vx, Vy (41_alu R143). -/
  | or (x y : RegIdx)
  /-- `8XY2` AND Vx, Vy (41_alu R144). -/
  | and (x y : RegIdx)
  /-- `8XY3` XOR Vx, Vy (41_alu R145). -/
  | xor (x y : RegIdx)
  /-- `8XY4` ADD Vx, Vy, add-with-carry (41_alu R146). -/
  | addReg (x y : RegIdx)
  /-- `8XY5` SUB Vx, Vy (41_alu R147). -/
  | sub (x y : RegIdx)
  /-- `8XY6` SHR Vx; the field `Y` is decoded and ignored (41_alu R148). -/
  | shr (x y : RegIdx)
  /-- `8XY7` SUBN Vx, Vy, reverse-subtract (41_alu R149). -/
  | subn (x y : RegIdx)
  /-- `8XYE` SHL Vx; the field `Y` is decoded and ignored (41_alu R150). -/
  | shl (x y : RegIdx)
  /-- `9XY0` SNE Vx, Vy (40_flow R131). -/
  | sneReg (x y : RegIdx)
  /-- `ANNN` LD I, nnn, load-address (42_address_memory R160). -/
  | ldI (nnn : Addr12)
  /-- `BNNN` JP Vx, nnn, jump-with-offset. The operand `x` is not free: it is `nnn[11:8]` (30_encoding R92, R100,
  40_flow R132), which `Instr.wf` checks. -/
  | jpVx (x : RegIdx) (nnn : Addr12)
  /-- `CXNN` RND Vx, nn, random-and (41_alu R151). -/
  | rnd (x : RegIdx) (nn : Byte)
  /-- `DXYN` DRW Vx, Vy, n, draw-sprite (43_display R181). -/
  | drw (x y : RegIdx) (n : Nibble)
  /-- `EX9E` SKP Vx (44_keys_timers R190). -/
  | skp (x : RegIdx)
  /-- `EXA1` SKNP Vx (44_keys_timers R191). -/
  | sknp (x : RegIdx)
  /-- `FX07` LD Vx, DT, read-delay-timer (44_keys_timers R193). -/
  | ldVxDt (x : RegIdx)
  /-- `FX0A` LD Vx, K, block-until-key (44_keys_timers R192). -/
  | ldVxK (x : RegIdx)
  /-- `FX15` LD DT, Vx, set-delay-timer (44_keys_timers R194). -/
  | ldDtVx (x : RegIdx)
  /-- `FX18` LD ST, Vx, set-sound-timer (44_keys_timers R195). -/
  | ldStVx (x : RegIdx)
  /-- `FX1E` ADD I, Vx, add-to-address (42_address_memory R161). -/
  | addI (x : RegIdx)
  /-- `FX29` LD F, Vx, load-glyph-address (42_address_memory R162). -/
  | ldF (x : RegIdx)
  /-- `FX33` LD B, Vx, store-digits (42_address_memory R163). -/
  | ldB (x : RegIdx)
  /-- `FX55` LD [I], Vx, store-registers (42_address_memory R164). -/
  | stRegs (x : RegIdx)
  /-- `FX65` LD Vx, [I], load-registers (42_address_memory R165). -/
  | ldRegs (x : RegIdx)
  deriving DecidableEq, Repr

end Sys2Proof
end

