-- ==== Sys2Proof/WellFormed.lean ====
section
/-! DEFINITION. Which terms of `Instr` are instructions. Every field has the width the encoding gives it, so the one
check left is that of jump-with-offset, whose register operand is not independent (30_encoding R92, R100). -/

namespace Sys2Proof

/-- The register index of jump-with-offset, bits 11:8 of its own `NNN` (40_flow R132). -/
def jumpOffsetReg (nnn : Addr12) : RegIdx := nnn.extractLsb' 8 4

/-- The instruction can be written in a word: in `JP Vx, nnn` the `x` is `nnn[11:8]` (30_encoding R100). -/
def Instr.wf : Instr → Bool
  | .cls | .ret | .jp _ | .call _ | .seImm _ _ | .sneImm _ _ | .seReg _ _ | .ldImm _ _ | .addImm _ _ => true
  | .ldReg _ _ | .or _ _ | .and _ _ | .xor _ _ | .addReg _ _ | .sub _ _ | .shr _ _ | .subn _ _ | .shl _ _ => true
  | .sneReg _ _ | .ldI _ | .rnd _ _ | .drw _ _ _ | .skp _ | .sknp _ => true
  | .ldVxDt _ | .ldVxK _ | .ldDtVx _ | .ldStVx _ | .addI _ | .ldF _ | .ldB _ | .stRegs _ | .ldRegs _ => true
  | .jpVx x nnn => x == jumpOffsetReg nnn

end Sys2Proof
end

