-- ==== Sys2Proof/Decode.lean ====
section
/-! DEFINITION. The decoder, table-driven as the opcode map of 30_encoding R94 (match and mask), total on any word
(R99) and on any bytes, and the encoder, written from the formats of R93. -/

namespace Sys2Proof

/-! Fields (30_encoding R91). -/

/-- `OP`, bits 15:12. -/
def fieldOp (w : Word) : Nibble := w.extractLsb' 12 4

/-- `X`, bits 11:8. -/
def fieldX (w : Word) : RegIdx := w.extractLsb' 8 4

/-- `Y`, bits 7:4. -/
def fieldY (w : Word) : RegIdx := w.extractLsb' 4 4

/-- `N`, bits 3:0. -/
def fieldN (w : Word) : Nibble := w.extractLsb' 0 4

/-- `NN`, bits 7:0. -/
def fieldNN (w : Word) : Byte := w.extractLsb' 0 8

/-- `NNN`, bits 11:0. -/
def fieldNNN (w : Word) : Addr12 := w.extractLsb' 0 12

/-! Formats: how the fields of an instruction are laid out in its word (30_encoding R93). -/

/-- Formats `A`: `OP` and a 12-bit address. -/
def packA (op : Nibble) (nnn : Addr12) : Word := op ++ nnn

/-- Formats `XB` and `XS`: `OP`, a register, a byte (immediate or sub-opcode). -/
def packXB (op : Nibble) (x : RegIdx) (nn : Byte) : Word := op ++ x ++ nn

/-- Formats `XY` and `XYN`: `OP`, two registers, a nibble (sub-opcode or immediate). -/
def packXY (op : Nibble) (x y : RegIdx) (n : Nibble) : Word := op ++ x ++ y ++ n

/-- A row of the opcode map: a word `w` selects the row when `w and mask = match` (30_encoding R94). -/
structure Row where
  /-- The fixed digits of the word, zero elsewhere. -/
  fixed : Word
  /-- The bits that are fixed. -/
  mask : Word
  /-- The mnemonic of spec/opcode_table.json. -/
  mnemonic : String
  /-- The instruction with the fields of the word. -/
  build : Word → Instr

/-- The word selects the row. -/
def Row.selects (r : Row) (w : Word) : Bool := w &&& r.mask == r.fixed

/-- Families `0x0` to `0x7` (30_encoding R94). -/
def rowsFlow : List Row :=
  [ ⟨0x00E0, 0xFFFF, "CLS", fun _ => .cls⟩,
    ⟨0x00EE, 0xFFFF, "RET", fun _ => .ret⟩,
    ⟨0x1000, 0xF000, "JP_nnn", fun w => .jp (fieldNNN w)⟩,
    ⟨0x2000, 0xF000, "CALL_nnn", fun w => .call (fieldNNN w)⟩,
    ⟨0x3000, 0xF000, "SE_Vx__nn", fun w => .seImm (fieldX w) (fieldNN w)⟩,
    ⟨0x4000, 0xF000, "SNE_Vx__nn", fun w => .sneImm (fieldX w) (fieldNN w)⟩,
    ⟨0x5000, 0xF00F, "SE_Vx__Vy", fun w => .seReg (fieldX w) (fieldY w)⟩,
    ⟨0x6000, 0xF000, "LD_Vx__nn", fun w => .ldImm (fieldX w) (fieldNN w)⟩,
    ⟨0x7000, 0xF000, "ADD_Vx__nn", fun w => .addImm (fieldX w) (fieldNN w)⟩ ]

/-- Families `0x8` and `0x9` (30_encoding R94). -/
def rowsAlu : List Row :=
  [ ⟨0x8000, 0xF00F, "LD_Vx__Vy", fun w => .ldReg (fieldX w) (fieldY w)⟩,
    ⟨0x8001, 0xF00F, "OR_Vx__Vy", fun w => .or (fieldX w) (fieldY w)⟩,
    ⟨0x8002, 0xF00F, "AND_Vx__Vy", fun w => .and (fieldX w) (fieldY w)⟩,
    ⟨0x8003, 0xF00F, "XOR_Vx__Vy", fun w => .xor (fieldX w) (fieldY w)⟩,
    ⟨0x8004, 0xF00F, "ADD_Vx__Vy", fun w => .addReg (fieldX w) (fieldY w)⟩,
    ⟨0x8005, 0xF00F, "SUB_Vx__Vy", fun w => .sub (fieldX w) (fieldY w)⟩,
    ⟨0x8006, 0xF00F, "SHR_Vx", fun w => .shr (fieldX w) (fieldY w)⟩,
    ⟨0x8007, 0xF00F, "SUBN_Vx__Vy", fun w => .subn (fieldX w) (fieldY w)⟩,
    ⟨0x800E, 0xF00F, "SHL_Vx", fun w => .shl (fieldX w) (fieldY w)⟩,
    ⟨0x9000, 0xF00F, "SNE_Vx__Vy", fun w => .sneReg (fieldX w) (fieldY w)⟩ ]

/-- Families `0xA` to `0xE` (30_encoding R94). In `BNNN` the register index is bits 11:8 of the word (40_flow R132). -/
def rowsAddress : List Row :=
  [ ⟨0xA000, 0xF000, "LD_I__nnn", fun w => .ldI (fieldNNN w)⟩,
    ⟨0xB000, 0xF000, "JP_Vx__nnn", fun w => .jpVx (fieldX w) (fieldNNN w)⟩,
    ⟨0xC000, 0xF000, "RND_Vx__nn", fun w => .rnd (fieldX w) (fieldNN w)⟩,
    ⟨0xD000, 0xF000, "DRW_Vx__Vy__n", fun w => .drw (fieldX w) (fieldY w) (fieldN w)⟩,
    ⟨0xE09E, 0xF0FF, "SKP_Vx", fun w => .skp (fieldX w)⟩,
    ⟨0xE0A1, 0xF0FF, "SKNP_Vx", fun w => .sknp (fieldX w)⟩ ]

/-- Family `0xF` (30_encoding R94). -/
def rowsMisc : List Row :=
  [ ⟨0xF007, 0xF0FF, "LD_Vx__DT", fun w => .ldVxDt (fieldX w)⟩,
    ⟨0xF00A, 0xF0FF, "LD_Vx__K", fun w => .ldVxK (fieldX w)⟩,
    ⟨0xF015, 0xF0FF, "LD_DT__Vx", fun w => .ldDtVx (fieldX w)⟩,
    ⟨0xF018, 0xF0FF, "LD_ST__Vx", fun w => .ldStVx (fieldX w)⟩,
    ⟨0xF01E, 0xF0FF, "ADD_I__Vx", fun w => .addI (fieldX w)⟩,
    ⟨0xF029, 0xF0FF, "LD_F__Vx", fun w => .ldF (fieldX w)⟩,
    ⟨0xF033, 0xF0FF, "LD_B__Vx", fun w => .ldB (fieldX w)⟩,
    ⟨0xF055, 0xF0FF, "LD__I___Vx", fun w => .stRegs (fieldX w)⟩,
    ⟨0xF065, 0xF0FF, "LD_Vx___I", fun w => .ldRegs (fieldX w)⟩ ]

/-- The complete opcode map, 34 rows (30_encoding R94). -/
def opcodeMap : List Row := rowsFlow ++ rowsAlu ++ rowsAddress ++ rowsMisc

/-- What a word decodes to: an instruction, or the explicit unknown variant that carries the word (30_encoding R99). -/
inductive Decoded where
  /-- The word selects a row of the opcode map. -/
  | insn (i : Instr)
  /-- The word matches no row of the opcode map (30_encoding R97). -/
  | unknown (w : Word)
  deriving DecidableEq, Repr

/-- Decode is total: any word gives an instruction or `unknown` (30_encoding R94, R96, R99, 40_flow R123). -/
def decodeWord (w : Word) : Decoded :=
  match opcodeMap.find? (·.selects w) with
  | some r => .insn (r.build w)
  | none => .unknown w

/-- The instruction word of two bytes: big-endian, the byte at the lower address in bits 15:8 (20_memory R66). -/
def wordOfBytes (hi lo : Byte) : Word := hi ++ lo

/-- The byte of a word that lies at the lower address (20_memory R66). -/
def highByte (w : Word) : Byte := w.extractLsb' 8 8

/-- The byte of a word that lies at the higher address (20_memory R66). -/
def lowByte (w : Word) : Byte := w.extractLsb' 0 8

/-- Why bytes decode to no instruction. -/
inductive DecodeError where
  /-- Fewer than two bytes are left (every instruction is two bytes, 30_encoding R90). -/
  | truncated
  /-- The word is unrecognized (30_encoding R97). -/
  | unknownWord (w : Word)
  deriving DecidableEq, Repr

/-- The decoder on bytes in memory order: the first instruction and the bytes after it, or a rejection by name. -/
def decodeBytes : List Byte → Except DecodeError (Instr × List Byte)
  | hi :: lo :: rest =>
    match decodeWord (wordOfBytes hi lo) with
    | .insn i => .ok (i, rest)
    | .unknown w => .error (.unknownWord w)
  | [_] => .error .truncated
  | [] => .error .truncated

/-- The 16 bits of an opcode-table word of which the table gives `nbits`; the bits above are 0. -/
def tableWord (nbits w : Nat) : Word := BitVec.ofNat 16 (w % 2 ^ nbits)

/-- The instruction the decoder reads from a word of spec/opcode_table.json, laid out in bytes as the hardware stores
it (20_memory R66). -/
def decodeTableWord (nbits w : Nat) : Option Instr :=
  match decodeBytes [highByte (tableWord nbits w), lowByte (tableWord nbits w)] with
  | .ok (i, _) => some i
  | .error _ => none

/-! The encoder. -/

/-- The word of an instruction (30_encoding R93, R94). -/
def encode : Instr → Word
  | .cls => 0x00E0
  | .ret => 0x00EE
  | .jp nnn => packA 0x1 nnn
  | .call nnn => packA 0x2 nnn
  | .seImm x nn => packXB 0x3 x nn
  | .sneImm x nn => packXB 0x4 x nn
  | .seReg x y => packXY 0x5 x y 0x0
  | .ldImm x nn => packXB 0x6 x nn
  | .addImm x nn => packXB 0x7 x nn
  | .ldReg x y => packXY 0x8 x y 0x0
  | .or x y => packXY 0x8 x y 0x1
  | .and x y => packXY 0x8 x y 0x2
  | .xor x y => packXY 0x8 x y 0x3
  | .addReg x y => packXY 0x8 x y 0x4
  | .sub x y => packXY 0x8 x y 0x5
  | .shr x y => packXY 0x8 x y 0x6
  | .subn x y => packXY 0x8 x y 0x7
  | .shl x y => packXY 0x8 x y 0xE
  | .sneReg x y => packXY 0x9 x y 0x0
  | .ldI nnn => packA 0xA nnn
  | .jpVx _ nnn => packA 0xB nnn
  | .rnd x nn => packXB 0xC x nn
  | .drw x y n => packXY 0xD x y n
  | .skp x => packXB 0xE x 0x9E
  | .sknp x => packXB 0xE x 0xA1
  | .ldVxDt x => packXB 0xF x 0x07
  | .ldVxK x => packXB 0xF x 0x0A
  | .ldDtVx x => packXB 0xF x 0x15
  | .ldStVx x => packXB 0xF x 0x18
  | .addI x => packXB 0xF x 0x1E
  | .ldF x => packXB 0xF x 0x29
  | .ldB x => packXB 0xF x 0x33
  | .stRegs x => packXB 0xF x 0x55
  | .ldRegs x => packXB 0xF x 0x65

/-- The bytes of an instruction in memory order (20_memory R66). -/
def encodeBytes (i : Instr) : List Byte := [highByte (encode i), lowByte (encode i)]

end Sys2Proof
end

