-- ==== Sys2Proof/Machine/Fetch.lean ====
section
/-! DEFINITION. The phases of a step before execute: the guard and the fetch (40_flow R121, R122), and where a word is
placed so that the fetch finds it. -/

namespace Sys2Proof.Machine

/-- The pre-execute guard: `pc`, then `I`, then `SP`, the first out of bounds decides the error (40_flow R121). -/
def guardError (s : State) : Option FatalError :=
  if Config.pcMax < s.pc then some (.memoryBounds s.pc)
  else if Config.iMax < s.i then some (.memoryBounds s.i)
  else if Config.stackDepth < s.sp then some (.stackOverflow s.pc)
  else none

/-- The fetch: the byte at `pc`, then the byte at `pc + 1`, big-endian, then `pc <- pc + 2` (40_flow R122). An error
is raised before `pc` is advanced. -/
def fetch (s : State) : Except FatalError (Word × State) :=
  match memRead s s.pc with
  | .error e => .error e
  | .ok hi =>
    match memRead s (s.pc + 1) with
    | .error e => .error e
    | .ok lo => .ok (wordOfBytes hi lo, s.advance)

/-- Guard, then fetch (40_flow R120). -/
def guardedFetch (s : State) : Except FatalError (Word × State) :=
  match guardError s with
  | some e => .error e
  | none => fetch s

/-- The unknown word: a warning with the word and the address it was fetched from, and nothing else (40_flow R124). -/
def execUnknown (w : Word) (s : State) : Result := .next (s.warn w (s.pc - Config.insnBytes))

/-- The state with a word's two bytes at `pc`, as far as they lie in memory. -/
def placeWord (w : Word) (s : State) : State :=
  match storeBytes [highByte w, lowByte w] s.pc s with
  | .running t => t
  | .raised _ t => t

end Sys2Proof.Machine
end

