-- ==== Sys2Proof/Machine/Step.lean ====
section
/-! DEFINITION. The `Step` event (40_flow R120). -/

namespace Sys2Proof.Machine

/-- One fetch-decode-execute cycle: nothing while halted, then guard, fetch, decode, execute (40_flow R120). A raise in
the guard or the fetch leaves everything but the fatal latch as it was (60_exceptions R201). -/
def step (s : State) : Host.Outcome State Fault Refusal :=
  if s.halted then .next s
  else
    match guardedFetch s with
    | .error e => (Progress.raised e s).finish
    | .ok (w, t) =>
      match decodeWord w with
      | .insn i => exec i t
      | .unknown u => execUnknown u t

/-- The state with the word of an opcode-table row where the next step fetches: at `pc`, big-endian. -/
def State.withFetchWord (s : State) (nbits w : Nat) : State := placeWord (tableWord nbits w) s

end Sys2Proof.Machine
end

