-- ==== Sys2Proof/Machine/Events.lean ====
section
/-! DEFINITION. The six events of the block (00_scope R9) and what each hands back to its issuer: `Step` is
`Machine.step`; the others are functions of the state. Any list of events may be applied, in any order (R9, 70 R246). -/

namespace Sys2Proof.Machine

/-! The timer tick (60_exceptions R207). -/

/-- One timer: "if > 0, decrement by 1", floor at 0. -/
def countDown (v : Byte) : Byte := if v = 0 then 0 else v - 1

/-- `Tick`: both timers count down, and `tone` is whether `ST` was above 0 before (60_exceptions R207). It acts the same
while halted (R217). -/
def tick (s : State) : State := { s with dt := countDown s.dt, st := countDown s.st, tone := s.st != 0 }

/-! Keys, dirty flag, framebuffer (60_exceptions R209 to R211). -/

/-- `SetKeys(k)`: the whole latch is replaced (60_exceptions R209). -/
def setKeys (k : BitVec 16) (s : State) : State := { s with keys := k }

/-- A key-down of code `c`: `SetKeys` with bit `c` set and the other bits unchanged (60_exceptions R209). -/
def keyDown (c : Nibble) (s : State) : State := setKeys (s.keys ||| (1 : BitVec 16) <<< c.toNat) s

/-- A key-up of code `c`: `SetKeys` with bit `c` cleared and the other bits unchanged (60_exceptions R209). -/
def keyUp (c : Nibble) (s : State) : State := setKeys (s.keys &&& ~~~((1 : BitVec 16) <<< c.toNat)) s

/-- `ClearDirty` (60_exceptions R210). -/
def clearDirty (s : State) : State := { s with dirty := false }

/-- What `FbRead` returns (60_exceptions R211). -/
structure Snapshot where
  /-- The 2048 pixels, row-major: `FB[r][c]` at index `r * 64 + c`. -/
  pixels : List Bool
  /-- The dirty flag. -/
  dirty : Bool
  deriving DecidableEq, Repr

/-- `FbRead`: a snapshot; it changes nothing (60_exceptions R211). -/
def fbRead (s : State) : Snapshot := ⟨s.fb.toList.flatMap (·.toList), s.dirty⟩

/-! Reset (70_reset_and_hazards R240). -/

/-- The cells of a program image whose first byte is at `a` (20_memory R76). -/
def Memory.imageCells : Nat → List Byte → Memory
  | _, [] => []
  | a, v :: vs => Memory.cell a v (Memory.imageCells (a + 1) vs)

/-- The image is not larger than the program region (20_memory R76, 60_exceptions R215). -/
def imageFits (image : List Byte) : Bool := decide (image.length ≤ Config.maxImage)

/-- The state `Reset(image)` leaves, whatever state there was before (70 R240). The count of random draws is the
environment's and is not set back, so that a second run need not draw the bytes of the first (log 3). -/
def resetState (image : List Byte) (draws : Nat) : State :=
  { State.reset with mem := Memory.imageCells Config.programBase image, draws := draws }

/-! The block and its events. -/

/-- The block as the host finds it: without a state before the first successful `Reset` (20_memory R76, 70 R240), or
with one. -/
inductive Block where
  /-- Power-on: no `Reset` has succeeded yet. -/
  | off
  /-- The block has a state. -/
  | on (s : State)
  deriving DecidableEq, Repr

/-- The random draws taken so far. -/
def Block.draws : Block → Nat
  | .off => 0
  | .on s => s.draws

/-- An event and its arguments (00_scope R9). -/
inductive Event where
  /-- `Reset(image)`, from the host. -/
  | reset (image : List Byte)
  /-- `Step`, from the host's timing loop. -/
  | step
  /-- `Tick`, from the host's timing loop. -/
  | tick
  /-- `SetKeys(k)`, from the presentation collaborator. -/
  | setKeys (k : BitVec 16)
  /-- `ClearDirty`, from the presentation collaborator. -/
  | clearDirty
  /-- `FbRead`, from the presentation collaborator. -/
  | fbRead
  deriving DecidableEq, Repr

/-- The three ways a step ends (40_flow R120). -/
inductive StepEnding where
  /-- Normal completion. -/
  | completed
  /-- Normal completion with an `UnknownInstructionWarning` (60_exceptions R204). -/
  | warned (w : Warning)
  /-- The terminal result of a fatal error: `err_code` and `err_info` (60_exceptions R200 to R202). -/
  | fatal (code : BitVec 3) (info : Word)
  deriving DecidableEq, Repr

/-- How the step from `s` to `t` ended. A step of a halted block reports the same terminal result again (R202). -/
def stepEnding (s t : State) : StepEnding :=
  if t.halted then .fatal t.errCode t.errInfo
  else
    match t.warnings with
    | w :: rest => if rest = s.warnings then .warned w else .completed
    | [] => .completed

/-- What an event hands back to its issuer. -/
inductive Reply where
  /-- Nothing. -/
  | quiet
  /-- `RomTooLargeError`, the result of a rejected `Reset` (60_exceptions R215). -/
  | romTooLarge
  /-- How a `Step` ended. -/
  | ended (e : StepEnding)
  /-- What `FbRead` returned. -/
  | snapshot (f : Snapshot)
  deriving DecidableEq, Repr

/-- What comes of an event. -/
inductive EventOutcome where
  /-- The event took place. -/
  | done (b : Block) (r : Reply)
  /-- The event is not defined: the block is off and the event is no `Reset` (70 R240). -/
  | notDefined
  /-- The step stopped with a fault of the model's; no step does (log 7). -/
  | faulted (f : Fault)
  /-- The step was refused; no step is. -/
  | refused (r : Refusal)
  deriving DecidableEq, Repr

/-- One event on the block (00_scope R9, 60_exceptions R215, 70 R240). -/
def Block.apply : Event → Block → EventOutcome
  | .reset image, b => if imageFits image then .done (.on (resetState image b.draws)) .quiet else .done b .romTooLarge
  | _, .off => .notDefined
  | .step, .on s =>
    match Machine.step s with
    | .next t => .done (.on t) (.ended (stepEnding s t))
    | .fault f => .faulted f
    | .refused r => .refused r
  | .tick, .on s => .done (.on (Machine.tick s)) .quiet
  | .setKeys k, .on s => .done (.on (Machine.setKeys k s)) .quiet
  | .clearDirty, .on s => .done (.on (Machine.clearDirty s)) .quiet
  | .fbRead, .on s => .done (.on s) (.snapshot (Machine.fbRead s))

/-- A list of events, first event first; `none` when one of them does not take place. -/
def Block.applyAll : List Event → Block → Option Block
  | [], b => some b
  | e :: es, b =>
    match Block.apply e b with
    | .done b' _ => Block.applyAll es b'
    | _ => none

end Sys2Proof.Machine
end

