-- ==== Sys2Proof/Safety.lean ====
section
/-! DEFINITION. The terms claims use: when a step reaches execute, the invariant of the machine, which registers an
instruction may write, the pixels a sprite covers. -/

namespace Sys2Proof.Machine

/-- The guard and the fetch pass: the block runs, both bytes at `pc` exist, `I` and `SP` are in their bounds
(40_flow R120 to R122). -/
def State.canFetch (s : State) : Prop :=
  s.halted = false ∧ s.pc.toNat < 0xFFF ∧ s.i.toNat ≤ 0xFFF ∧ s.sp.toNat ≤ 16

/-- The word at `pc`, big-endian (20_memory R66). -/
def State.wordAtPc (s : State) : Word := wordOfBytes (s.mem.read s.pc.toNat) (s.mem.read (s.pc.toNat + 1))

/-- The fatal latch is as 10_state R33 says: no code and no info while running, one of the three codes when halted. -/
def State.latchWf (s : State) : Prop :=
  (s.halted = false → s.errCode = 0 ∧ s.errInfo = 0) ∧
  (s.halted = true → s.errCode = 1 ∨ s.errCode = 2 ∨ s.errCode = 3)

/-- The invariant of the machine: memory in canonical form, `SP` at most 16 (10_state R24), `pc` at most `0x10FE`
(R23), `I` at most `0x10FE` (R22, 42_address_memory R161), every stack entry at most `0x1000` (40_flow R125, R127), the
fatal latch as R33 says. -/
structure State.Inv (s : State) : Prop where
  memory : s.mem.wf = true
  stackPointer : s.sp.toNat ≤ 16
  programCounter : s.pc.toNat ≤ 0x10FE
  addressRegister : s.i.toNat ≤ 0x10FE
  returnAddresses : ∀ (k : Nat) (h : k < 16), (s.stack[k]).toNat ≤ 0x1000
  latch : s.latchWf

/-- A block that is off, or whose state meets the invariant. -/
def Block.Inv : Block → Prop
  | .off => True
  | .on s => s.Inv

/-- The general registers an instruction may write: the one its `X` names as a destination, the flag register where it
has a flag effect (10_state R21), `x[0]` to `x[X]` for load-registers. -/
def mayWriteReg : Instr → RegIdx → Prop
  | .ldImm x _, k | .addImm x _, k | .ldReg x _, k | .or x _, k | .and x _, k | .xor x _, k => k = x
  | .rnd x _, k | .ldVxDt x, k | .ldVxK x, k => k = x
  | .addReg x _, k | .sub x _, k | .shr x _, k | .subn x _, k | .shl x _, k => k = x ∨ k = 0xF
  | .drw _ _ _, k => k = 0xF
  | .ldRegs x, k => k.toNat ≤ x.toNat
  | .cls, _ | .ret, _ | .jp _, _ | .call _, _ | .seImm _ _, _ | .sneImm _ _, _ | .seReg _ _, _ => False
  | .sneReg _ _, _ | .ldI _, _ | .jpVx _ _, _ | .skp _, _ | .sknp _, _ | .ldDtVx _, _ | .ldStVx _, _ => False
  | .addI _, _ | .ldF _, _ | .ldB _, _ | .stRegs _, _ => False

/-- The instructions that may move `pc` beyond the fetch's advance: return, jump, call, the skips, jump-with-offset and
block-until-key (10_state R23). -/
def mayMovePc : Instr → Prop
  | .ret | .jp _ | .call _ | .seImm _ _ | .sneImm _ _ | .seReg _ _ | .sneReg _ _ | .jpVx _ _ => True
  | .skp _ | .sknp _ | .ldVxK _ => True
  | .cls | .ldImm _ _ | .addImm _ _ | .ldReg _ _ | .or _ _ | .and _ _ | .xor _ _ | .addReg _ _ | .sub _ _ => False
  | .shr _ _ | .subn _ _ | .shl _ _ | .ldI _ | .rnd _ _ | .drw _ _ _ | .ldVxDt _ | .ldDtVx _ | .ldStVx _ => False
  | .addI _ | .ldF _ | .ldB _ | .stRegs _ | .ldRegs _ => False

/-- The state is a running one, and its next step raises `MemoryBoundsError(addr)` and changes nothing but the fatal
latch (40_flow R133). -/
def State.raisesBounds (s : State) (addr : Word) : Prop :=
  s.halted = false ∧ step s = .next { s with halted := true, errCode := 1, errInfo := addr }

/-- The step moves `pc` to `p` and changes nothing else, and where `p` is above `0xFFF` the step after it raises
(40_flow R133). -/
def State.stepsToPc (s : State) (p : Word) : Prop :=
  step s = .next { s with pc := p } ∧ (0xFFF < p.toNat → State.raisesBounds { s with pc := p } p)

/-- A sprite of `rows` rows drawn from the origin `(vx, vy)` has a 1 bit on the pixel in row `r`, column `c`: some bit
of some row, read from memory at `I + row`, lands there, modulo 32 and 64 (43_display R181). -/
def State.spriteCovers (s : State) (vx vy : Byte) (rows r c : Nat) : Prop :=
  ∃ row < rows, ∃ bit < 8, (vy.toNat + row) % 32 = r ∧ (vx.toNat + bit) % 64 = c ∧
    (s.mem.read (s.i.toNat + row)).getLsbD (7 - bit) = true

/-- Some 1 bit of the sprite lands on a pixel that is lit before the draw (43_display R181). -/
def State.spriteCollides (s : State) (vx vy : Byte) (rows : Nat) : Prop :=
  ∃ r c, s.spriteCovers vx vy rows r c ∧ s.pixel r c = true

/-- What `err_info` receives from a run of accesses that starts at `I`: the first address above `0xFFF` in ascending
order (60_exceptions R200). -/
def State.firstBadAddress (s : State) : Word := if s.i.toNat ≤ 0xFFF then 0x1000 else s.i

end Sys2Proof.Machine
end

