-- ==== Sys2Proof/Certificates/Slice0/Obligations.lean ====
section
/-! DEFINITION. The statements for the provers. Each docstring names the rule of spec/ it formalises; where a clause
rests on a choice the spec marks as its own, or on a log entry, the docstring says so. In the statements about `exec`,
`pc` already holds the address of the instruction plus 2 (00_scope R11). -/

open Sys2Proof Sys2Proof.Machine

/-! The step. -/

/-- 40_flow R120, R122, R123: when guard and fetch pass and the word at `pc` decodes to an instruction, that instruction
is well formed and the step is its `exec` on the state whose `pc` has moved past the word; the step adds nothing else. -/
def Obligations.StepRunsDecodedInstruction : Prop :=
  ∀ (s : State) (i : Instr), s.canFetch → decodeWord s.wordAtPc = .insn i →
    i.wf = true ∧ step s = exec i { s with pc := s.pc + 2 }

/-- 40_flow R122: for a `pc` the guard has passed, the fetch gives the two bytes at `pc` and `pc + 1`, the first in bits
15:8, and advances `pc` by 2; at `0xFFF` the second byte raises `MemoryBoundsError(0x1000)`. -/
def Obligations.FetchIsBigEndianAndAdvances : Prop :=
  ∀ s : State, s.pc.toNat ≤ 0xFFF →
    (s.pc ≠ 0xFFF →
      ∃ w : Word, fetch s = .ok (w, { s with pc := s.pc + 2 }) ∧
        w.toNat = (s.mem.read s.pc.toNat).toNat * 256 + (s.mem.read (s.pc.toNat + 1)).toNat) ∧
    (s.pc = 0xFFF → fetch s = .error (.memoryBounds 0x1000))

/-- 40_flow R121, R122, 60_exceptions R200, R201, R203. The place and the order of the guard's checks, the bound on `I`
and the numeric codes are the spec's own decisions (92 D4 to D7). A step that raises before execute sets the fatal latch
and nothing else. -/
def Obligations.StepRaisesBeforeExecuteInOrder : Prop :=
  ∀ s : State, s.halted = false →
    (0xFFF < s.pc.toNat → step s = .next { s with halted := true, errCode := 1, errInfo := s.pc }) ∧
    (s.pc.toNat ≤ 0xFFF → 0xFFF < s.i.toNat →
      step s = .next { s with halted := true, errCode := 1, errInfo := s.i }) ∧
    (s.pc.toNat ≤ 0xFFF → s.i.toNat ≤ 0xFFF → 16 < s.sp.toNat →
      step s = .next { s with halted := true, errCode := 2, errInfo := s.pc }) ∧
    (s.pc.toNat = 0xFFF → s.i.toNat ≤ 0xFFF → s.sp.toNat ≤ 16 →
      step s = .next { s with halted := true, errCode := 1, errInfo := 0x1000 })

/-- 40_flow R124, 60_exceptions R204. The form of the warning is the spec's own decision (92 D19) and its record in the
state is the model's (log 4). An unknown word completes: `pc` has moved past it, the warning carries the word and its
address, nothing else changes. -/
def Obligations.UnknownWordOnlyWarns : Prop :=
  ∀ (s : State) (w : Word), s.canFetch → decodeWord s.wordAtPc = .unknown w →
    ∃ t, step s = .next t ∧
      t = { s with pc := s.pc + 2, warnings := ⟨s.wordAtPc, s.pc⟩ :: s.warnings } ∧
      stepEnding s t = .warned ⟨s.wordAtPc, s.pc⟩

/-- 40_flow R120, 60_exceptions R203. The halted state and the codes are the spec's own decision (92 D7, log 6), as is
the form of the warning (92 D19). That a warning is recorded at the head of `warnings`, and that the way a step ended is
read from the two states by `stepEnding`, are the model's choice (log 4). From every running state the step answers a
next state, and it ends in exactly one of three ways: it completes; it completes with a warning, and then nothing but
`pc` and the report changes; it raises a fatal error with one of the three codes. No step faults or refuses. -/
def Obligations.StepEndsInOneOfThreeWays : Prop :=
  ∀ s : State, s.halted = false → ∃ t, step s = .next t ∧
    ((t.halted = false ∧ t.warnings = s.warnings ∧ stepEnding s t = .completed) ∨
     (t.halted = false ∧ ∃ w, t = { s with pc := s.pc + 2, warnings := w :: s.warnings } ∧ stepEnding s t = .warned w) ∨
     (t.halted = true ∧ t.warnings = s.warnings ∧ (t.errCode = 1 ∨ t.errCode = 2 ∨ t.errCode = 3) ∧
      stepEnding s t = .fatal t.errCode t.errInfo))

/-! Encoding. -/

/-- 30_encoding R91, R93, R94, R99: for every well-formed instruction, with every operand at every value the encoding
admits, decoding its word gives it back. -/
def Obligations.DecodeOfEncodeIsTheInstruction : Prop :=
  ∀ i : Instr, i.wf = true → decodeWord (encode i) = .insn i

/-- 30_encoding R91, R93, R94: a word that decodes to an instruction is that instruction's word, and the instruction is
well formed; no other well-formed instruction has that word. -/
def Obligations.EncodeOfDecodeIsTheWord : Prop :=
  ∀ (w : Word) (i : Instr), decodeWord w = .insn i →
    encode i = w ∧ i.wf = true ∧ ∀ j : Instr, j.wf = true → encode j = w → j = i

/-- 30_encoding R94: "The rows are disjoint, so the order of testing does not matter", and there are 34. -/
def Obligations.OpcodeRowsAreDisjoint : Prop :=
  opcodeMap.length = 34 ∧
    opcodeMap.Pairwise fun r r' => ∀ w : Word, ¬(r.selects w = true ∧ r'.selects w = true)

/-- 30_encoding R97, R99. The strict decode is the spec's own decision (92 D11). A word is unknown exactly when it is in
the list of R97, and `unknown` carries the word; words of families 1, 2, 3, 4, 6, 7, A, B, C, D are never unknown. -/
def Obligations.UnknownWordsAreTheListedOnes : Prop :=
  ∀ w u : Word, decodeWord w = .unknown u ↔
    u = w ∧
    ((w.toNat / 4096 = 0x0 ∧ w.toNat ≠ 0x00E0 ∧ w.toNat ≠ 0x00EE) ∨
     (w.toNat / 4096 = 0x5 ∧ w.toNat % 16 ≠ 0) ∨
     (w.toNat / 4096 = 0x8 ∧ w.toNat % 16 ∈ [0x8, 0x9, 0xA, 0xB, 0xC, 0xD, 0xF]) ∨
     (w.toNat / 4096 = 0x9 ∧ w.toNat % 16 ≠ 0) ∨
     (w.toNat / 4096 = 0xE ∧ w.toNat % 256 ∉ [0x9E, 0xA1]) ∨
     (w.toNat / 4096 = 0xF ∧ w.toNat % 256 ∉ [0x07, 0x0A, 0x15, 0x18, 0x1E, 0x29, 0x33, 0x55, 0x65]))

/-- 30_encoding R91, R94: words written out from the spec. The first three are the source's own bytes with their glosses;
the others are one word of each further format. -/
def Obligations.SampleWordsDecodeAsGlossed : Prop :=
  decodeWord 0x600A = .insn (.ldImm 0x0 0x0A) ∧ decodeWord 0xA250 = .insn (.ldI 0x250) ∧
    decodeWord 0xD005 = .insn (.drw 0x0 0x0 0x5) ∧ decodeWord 0x00EE = .insn .ret ∧
    decodeWord 0x8AB4 = .insn (.addReg 0xA 0xB) ∧ decodeWord 0xF365 = .insn (.ldRegs 0x3) ∧
    decodeBytes [0x12, 0x34] = .ok (.jp 0x234, []) ∧ decodeWord 0xFFFF = .unknown 0xFFFF

/-! Memory. -/

/-- 20_memory R63, R64: an access at or below `0xFFF` reads the byte there, or writes it and changes nothing else; an
access above raises `MemoryBoundsError` of its address and writes nothing. The premise is the memory part of the
invariant. -/
def Obligations.MemoryAccessIsBoundsChecked : Prop :=
  ∀ (s : State) (addr : Word) (v : Byte), s.mem.wf = true →
    (addr.toNat ≤ 0xFFF →
      memRead s addr = .ok (s.mem.read addr.toNat) ∧
      ∃ m, memWrite s addr v = .ok { s with mem := m } ∧ m.read addr.toNat = v ∧
        ∀ a, a ≠ addr.toNat → m.read a = s.mem.read a) ∧
    (0xFFF < addr.toNat →
      memRead s addr = .error (.memoryBounds addr) ∧ memWrite s addr v = .error (.memoryBounds addr))

/-- The canonical form of memory is the model's own (20_memory R60, log 2): two memories in that form that read alike are the
same data. -/
def Obligations.EqualMemoriesAreEqualData : Prop :=
  ∀ m m' : Memory, m.wf = true → m'.wf = true → (∀ a, m.read a = m'.read a) → m = m'

/-- 20_memory R66, R74 (R74 is derived by the spec). Placing a word by `withFetchWord` is the model's own (log 5). A
word stored at `pc` is the word the next step fetches, and the step runs it; the store changes no other byte and nothing
but memory. -/
def Obligations.StoredWordIsFetchedNext : Prop :=
  ∀ (s : State) (w : Word), s.canFetch → s.mem.wf = true →
    ∃ t, s.withFetchWord 16 w.toNat = t ∧ t = { s with mem := t.mem } ∧ t.wordAtPc = w ∧
      (∀ a, a ≠ s.pc.toNat → a ≠ s.pc.toNat + 1 → t.mem.read a = s.mem.read a) ∧
      ∀ i, decodeTableWord 16 w.toNat = some i → step t = exec i { t with pc := s.pc + 2 }

/-! The invariant. -/

/-- 70_reset_and_hazards R240, 10_state R36 to R41: the state after every accepted `Reset`, and `State.reset`, meet the
invariant (the zeros are the spec's own decision, 92 D3, log 1). -/
def Obligations.ResetMeetsInvariant : Prop :=
  State.reset.Inv ∧ ∀ (image : List Byte) (draws : Nat), image.length ≤ 3584 → (resetState image draws).Inv

/-- 10_state R22 to R25, R33, 20_memory R60. The bound on `I` and the convention of `SP` are the spec's own decisions
(92 D5, D16, log 12), as is the fatal latch (92 D7, log 6); the canonical form of memory is the model's (log 2). From
every state that meets the invariant (memory in canonical form, `SP` at most 16, `pc` and `I` at most `0x10FE`, return
addresses at most `0x1000`, the fatal latch as R33 says), whatever word is at `pc`, the step gives a state that meets
it. -/
def Obligations.StepKeepsInvariant : Prop :=
  ∀ s t : State, s.Inv → step s = .next t → t.Inv

/-- 00_scope R9. The six events are the spec's own decision (92 D1); the block that is off or on is the model's form
(logs 5, 14). Every event on a block that meets the invariant leaves a block that meets it. -/
def Obligations.EventsKeepInvariant : Prop :=
  ∀ (e : Event) (b b' : Block) (r : Reply), b.Inv → Block.apply e b = .done b' r → b'.Inv

/-- 00_scope R9, 70_reset_and_hazards R240, R246. The six events are the spec's own decision (92 D1), as is loading by
`Reset` (92 D18); lists of events are the model's form (logs 5, 14). After a `Reset` that fits, every list of events, in
any order and any ratio of steps to ticks, takes place, none stops by a fault or a refusal, and the block it leaves has
a state that meets the invariant. -/
def Obligations.EveryEventSequenceTakesPlace : Prop :=
  ∀ (image : List Byte) (b : Block) (es : List Event), image.length ≤ 3584 →
    ∃ t, Block.applyAll (.reset image :: es) b = some (.on t) ∧ t.Inv

/-! What an instruction may change. -/

/-- 10_state R20, R21: an instruction that completes leaves every general register alone but the destination its `X`
names, the flag register where it has a flag effect, and `x[0]` to `x[X]` for load-registers (`mayWriteReg`). That the
flag register is `x[0xF]` is from the spec's general knowledge (93 G1, log 12). -/
def Obligations.OnlyNamedRegistersAreWritten : Prop :=
  ∀ (i : Instr) (s t : State) (k : RegIdx), exec i s = .next t → ¬ mayWriteReg i k → t.reg k = s.reg k

/-- 10_state R22, R24 to R28, R30 to R32, R34, 20_memory R60, R69, R77: the frame of every instruction outside the
general registers. No instruction writes `tone`, the key latch or the report of warnings, or clears `dirty`; only CLS and
DRW change the framebuffer and `dirty`; only store-digits and store-registers change memory; only set-delay-timer and
set-sound-timer change `DT` and `ST`; only return and call change `SP` and the stack; only the five address instructions
change `I`; only the control-flow, key-skip and block-until-key instructions change `pc`. That only random-and draws
(`draws`) and that warnings are kept in the state are the model's (logs 3, 4). -/
def Obligations.InstructionsChangeOnlyNamedState : Prop :=
  ∀ (i : Instr) (s t : State), exec i s = .next t →
    t.tone = s.tone ∧ t.keys = s.keys ∧ t.warnings = s.warnings ∧ (s.dirty = true → t.dirty = true) ∧
    (i ≠ .cls → (∀ x y n, i ≠ .drw x y n) → t.fb = s.fb ∧ t.dirty = s.dirty) ∧
    ((∀ x, i ≠ .ldB x) → (∀ x, i ≠ .stRegs x) → t.mem = s.mem) ∧
    ((∀ x, i ≠ .ldDtVx x) → t.dt = s.dt) ∧ ((∀ x, i ≠ .ldStVx x) → t.st = s.st) ∧
    (i ≠ .ret → (∀ a, i ≠ .call a) → t.sp = s.sp ∧ t.stack = s.stack) ∧
    ((∀ a, i ≠ .ldI a) → (∀ x, i ≠ .addI x) → (∀ x, i ≠ .ldF x) → (∀ x, i ≠ .stRegs x) → (∀ x, i ≠ .ldRegs x) →
      t.i = s.i) ∧
    ((∀ x n, i ≠ .rnd x n) → t.draws = s.draws) ∧
    (i ≠ .ret → (∀ a, i ≠ .jp a) → (∀ a, i ≠ .call a) → (∀ x n, i ≠ .seImm x n) → (∀ x n, i ≠ .sneImm x n) →
      (∀ x y, i ≠ .seReg x y) → (∀ x y, i ≠ .sneReg x y) → (∀ x a, i ≠ .jpVx x a) → (∀ x, i ≠ .skp x) →
      (∀ x, i ≠ .sknp x) → (∀ x, i ≠ .ldVxK x) → t.pc = s.pc)

/-- 60_exceptions R200, R201. The codes and the fatal latch are the spec's own decision (92 D7, log 6), as is the
ascending order of the accesses, which tells which address the latch receives (92 D30, log 12). Of the instructions,
only CALL on a full stack, RET on an empty one, and the four memory instructions when an address they access lies above
`0xFFF` raise a fatal error, and exactly then; an instruction that raises none leaves the fatal latch alone. -/
def Obligations.OnlyListedInstructionsRaise : Prop :=
  ∀ (i : Instr) (s t : State), s.halted = false → exec i s = .next t →
    (t.halted = false → t.errCode = s.errCode ∧ t.errInfo = s.errInfo) ∧
    match i with
    | .call _ => (t.halted = true ↔ s.sp = 16) ∧ (t.halted = true → t.errCode = 2 ∧ t.errInfo = s.pc)
    | .ret => (t.halted = true ↔ s.sp = 0) ∧ (t.halted = true → t.errCode = 3 ∧ t.errInfo = s.pc)
    | .drw _ _ n => (t.halted = true ↔ ∃ row < n.toNat, 0xFFF < s.i.toNat + row) ∧
        (t.halted = true → t.errCode = 1 ∧ t.errInfo = s.firstBadAddress)
    | .ldB _ => (t.halted = true ↔ 0xFFF < s.i.toNat + 2) ∧
        (t.halted = true → t.errCode = 1 ∧ t.errInfo = s.firstBadAddress)
    | .stRegs x => (t.halted = true ↔ 0xFFF < s.i.toNat + x.toNat) ∧
        (t.halted = true → t.errCode = 1 ∧ t.errInfo = s.firstBadAddress)
    | .ldRegs x => (t.halted = true ↔ 0xFFF < s.i.toNat + x.toNat) ∧
        (t.halted = true → t.errCode = 1 ∧ t.errInfo = s.firstBadAddress)
    | _ => t.halted = false

/-- 10_state R27, R28, R31, R35, 60_exceptions R204. That the report is kept in the state is the model's choice (log 4).
A program cannot read back `ST`, `tone`, `dirty` or the report of warnings. Two states that differ in those alone step
to states that differ in those alone. -/
def Obligations.OutputsAreNotReadByPrograms : Prop :=
  ∀ s s' t : State,
    s' = { s with st := s'.st, tone := s'.tone, dirty := s'.dirty, warnings := s'.warnings } → step s = .next t →
    ∃ t', step s' = .next t' ∧
      t' = { t with st := t'.st, tone := t'.tone, dirty := t'.dirty, warnings := t'.warnings }

/-! Display. -/

/-- 43_display R180: clear-screen zeroes every pixel and marks dirty; nothing else changes. -/
def Obligations.ClearScreenZeroesEveryPixel : Prop :=
  ∀ s : State, ∃ t, exec .cls s = .next t ∧ t = { s with fb := t.fb, dirty := true } ∧
    ∀ r c, r < 32 → c < 64 → t.pixel r c = false

/-- 43_display R181. The early capture of the origin, the unconditional `dirty` and the identity of the flag register
are the spec's own decisions (92 D13, D12, D31, log 12). When every row lies in memory, or there is none, draw-sprite
completes: each pixel is XORed with the sprite bit that lands on it, coordinates wrapping; `x[0xF]` is 1 if and only if
a 1 bit lands on a pixel lit before, else 0; `dirty` is set; nothing else changes. -/
def Obligations.DrawSpriteXorsAndReportsCollision : Prop :=
  ∀ (s : State) (x y : RegIdx) (n : Nibble), n = 0 ∨ s.i.toNat + n.toNat ≤ 0x1000 →
    ∃ t, exec (.drw x y n) s = .next t ∧ t = { s with x := t.x, fb := t.fb, dirty := true } ∧
      (∀ r c, r < 32 → c < 64 → (t.pixel r c = true ↔
        ¬(s.pixel r c = true ↔ s.spriteCovers (s.reg x) (s.reg y) n.toNat r c))) ∧
      (s.spriteCollides (s.reg x) (s.reg y) n.toNat → t.reg 0xF = 1) ∧
      (¬ s.spriteCollides (s.reg x) (s.reg y) n.toNat → t.reg 0xF = 0) ∧
      ∀ k, k ≠ 0xF → t.reg k = s.reg k

/-- 43_display R181, 60_exceptions R200, R201. That earlier effects stay (92 D8, log 6), the fatal latch and its code 1
(92 D7, log 6), that the origin is read before the flag register is cleared (92 D13, log 12), which tells where `X` or
`Y` is `0xF`, and that the flag register is `x[0xF]` (92 D31, log 12) are the spec's own decisions. When some row's
address lies above `0xFFF`, draw-sprite raises at the first: the rows that lie in memory, `0x1000 - I` of them or none,
stay drawn, `x[0xF]` holds what they gave it, `dirty` is not set. -/
def Obligations.DrawSpriteRaisesAtFirstBadRow : Prop :=
  ∀ (s : State) (x y : RegIdx) (n : Nibble), n ≠ 0 → 0x1000 < s.i.toNat + n.toNat →
    ∃ t, exec (.drw x y n) s = .next t ∧
      t = { s with x := t.x, fb := t.fb, halted := true, errCode := 1, errInfo := s.firstBadAddress } ∧
      (∀ r c, r < 32 → c < 64 → (t.pixel r c = true ↔
        ¬(s.pixel r c = true ↔ s.spriteCovers (s.reg x) (s.reg y) (0x1000 - s.i.toNat) r c))) ∧
      (s.spriteCollides (s.reg x) (s.reg y) (0x1000 - s.i.toNat) → t.reg 0xF = 1) ∧
      (¬ s.spriteCollides (s.reg x) (s.reg y) (0x1000 - s.i.toNat) → t.reg 0xF = 0) ∧
      ∀ k, k ≠ 0xF → t.reg k = s.reg k

/-- 43_display R181, corner case (f): drawing the same sprite twice at the same place restores the framebuffer. The
origin registers are not the flag register, which a draw writes. -/
def Obligations.DrawTwiceRestoresTheScreen : Prop :=
  ∀ (s : State) (x y : RegIdx) (n : Nibble), x ≠ 0xF → y ≠ 0xF → s.i.toNat + n.toNat ≤ 0x1000 →
    ∃ t u, exec (.drw x y n) s = .next t ∧ exec (.drw x y n) t = .next u ∧ u.fb = s.fb

/-! Control flow. -/

/-- 40_flow R125, 10_state R24, R25, 60_exceptions R200. That `SP` counts the entries, so that the pop reads
`stack[SP - 1]`, and that the popped entry keeps its value are the spec's own decision (92 D16, log 12); so are the fatal
latch and its code 3 (92 D7, log 6). Return pops the call stack into `pc`; an empty stack raises
`StackUnderflowError(pc)` before any write. -/
def Obligations.ReturnPopsTheStack : Prop :=
  ∀ s : State,
    (∀ h : s.sp.toNat - 1 < 16, s.sp ≠ 0 →
      exec .ret s = .next { s with sp := s.sp - 1, pc := s.stack[s.sp.toNat - 1] }) ∧
    (s.sp = 0 → exec .ret s = .next { s with halted := true, errCode := 3, errInfo := s.pc })

/-- 40_flow R127, 10_state R24, R25, 60_exceptions R200. That the push writes `stack[SP]` and then counts it is the spec's
own decision (92 D16, log 12); so are the fatal latch and its code 2 (92 D7, log 6). Call pushes `pc`, the address of the
instruction after it, and jumps; a full stack raises `StackOverflowError(pc)` before any write. -/
def Obligations.CallPushesReturnAddress : Prop :=
  ∀ (s : State) (nnn : Addr12),
    (s.sp.toNat < 16 →
      ∃ t, exec (.call nnn) s = .next t ∧ t = { s with stack := t.stack, sp := s.sp + 1, pc := nnn.setWidth 16 } ∧
        ∀ (k : Nat) (h : k < 16), t.stack[k] = if k = s.sp.toNat then s.pc else s.stack[k]) ∧
    (s.sp = 16 → exec (.call nnn) s = .next { s with halted := true, errCode := 2, errInfo := s.pc })

/-- 40_flow R125, R127: a return right after a call comes back to the instruction after the call, with `SP` as it was.
That push and pop name the same entry is the spec's own decision (92 D16). -/
def Obligations.CallThenReturnComesBack : Prop :=
  ∀ (s : State) (nnn : Addr12), s.sp.toNat < 16 →
    ∃ t u, exec (.call nnn) s = .next t ∧ exec .ret t = .next u ∧ u = { s with stack := u.stack }

/-- 10_state R24, R25, 40_flow R121 (log 7): with `SP` above 16 the entry CALL would write and the entry RET would read
do not exist, and the model stops by name; in a step the guard raises before either runs. -/
def Obligations.MissingStackEntryStopsByName : Prop :=
  ∀ s : State,
    (16 < s.sp.toNat → ∀ nnn, exec (.call nnn) s = .fault (.noStackEntry s.sp)) ∧
    (16 < s.sp.toNat → exec .ret s = .fault (.noStackEntry s.sp)) ∧
    (16 < s.sp.toNat → s.halted = false → ∃ t, step s = .next t ∧ t.halted = true)

/-- 40_flow R126: jump sets `pc` to `NNN`, odd or reserved targets included; nothing else changes. -/
def Obligations.JumpSetsPc : Prop :=
  ∀ (s : State) (nnn : Addr12), ∃ t, exec (.jp nnn) s = .next t ∧ t = { s with pc := t.pc } ∧ t.pc.toNat = nnn.toNat

/-- 40_flow R128 to R131: a skip adds 2 to `pc` a second time exactly when its condition holds; nothing else changes. -/
def Obligations.SkipsCompareRegisters : Prop :=
  ∀ (s : State) (x y : RegIdx) (nn : Byte),
    exec (.seImm x nn) s = .next (if s.reg x = nn then { s with pc := s.pc + 2 } else s) ∧
    exec (.sneImm x nn) s = .next (if s.reg x ≠ nn then { s with pc := s.pc + 2 } else s) ∧
    exec (.seReg x y) s = .next (if s.reg x = s.reg y then { s with pc := s.pc + 2 } else s) ∧
    exec (.sneReg x y) s = .next (if s.reg x ≠ s.reg y then { s with pc := s.pc + 2 } else s)

/-- 44_keys_timers R190, R191: the key skips test the key at the low nibble of `x[X]`; nothing but `pc` changes. -/
def Obligations.KeySkipsTestTheLatch : Prop :=
  ∀ (s : State) (x : RegIdx),
    exec (.skp x) s =
      .next (if s.keys.getLsbD ((s.reg x).toNat % 16) = true then { s with pc := s.pc + 2 } else s) ∧
    exec (.sknp x) s =
      .next (if s.keys.getLsbD ((s.reg x).toNat % 16) = false then { s with pc := s.pc + 2 } else s)

/-- 40_flow R132: jump-with-offset sets `pc` to `x[X] + NNN`, `X` the top nibble of `NNN`, not reduced modulo 4096 and
never wrapping; nothing else changes. -/
def Obligations.JumpWithOffsetAddsRegister : Prop :=
  ∀ (s : State) (x : RegIdx) (nnn : Addr12), (Instr.jpVx x nnn).wf = true →
    x.toNat = nnn.toNat / 256 ∧
    ∃ t, exec (.jpVx x nnn) s = .next t ∧ t = { s with pc := t.pc } ∧ t.pc.toNat = (s.reg x).toNat + nnn.toNat

/-! Register loads, arithmetic, logic. -/

/-- 41_alu R140, R141: load-immediate and add-immediate write `x[X]` alone, the sum modulo 256; no flag is written (with
`X = 0xF` the flag register receives the result as any register). -/
def Obligations.ImmediateFormsWriteOneRegister : Prop :=
  ∀ (s : State) (x : RegIdx) (nn : Byte),
    (∃ t, exec (.ldImm x nn) s = .next t ∧ t = { s with x := t.x } ∧
      ∀ k, t.reg k = if k = x then nn else s.reg k) ∧
    (∃ t, exec (.addImm x nn) s = .next t ∧ t = { s with x := t.x } ∧
      (t.reg x).toNat = ((s.reg x).toNat + nn.toNat) % 256 ∧ ∀ k, k ≠ x → t.reg k = s.reg k)

/-- 41_alu R142 to R145. The operand roles are the spec's general knowledge and decision (92 D27). Copy, OR, AND, XOR
write `x[X]` alone; the flag register is left alone unless `X = 0xF`, when it receives the result. -/
def Obligations.CopyAndLogicLeaveTheFlag : Prop :=
  ∀ (s : State) (x y : RegIdx),
    (∃ t, exec (.ldReg x y) s = .next t ∧ t = { s with x := t.x } ∧
      ∀ k, t.reg k = if k = x then s.reg y else s.reg k) ∧
    (∃ t, exec (.or x y) s = .next t ∧ t = { s with x := t.x } ∧
      ∀ k, t.reg k = if k = x then s.reg x ||| s.reg y else s.reg k) ∧
    (∃ t, exec (.and x y) s = .next t ∧ t = { s with x := t.x } ∧
      ∀ k, t.reg k = if k = x then s.reg x &&& s.reg y else s.reg k) ∧
    (∃ t, exec (.xor x y) s = .next t ∧ t = { s with x := t.x } ∧
      ∀ k, t.reg k = if k = x then s.reg x ^^^ s.reg y else s.reg k)

/-- 41_alu R146, R153. The operand roles, the identity of the flag register and the flag written last are the spec's own
(92 D27, D31, D9). The flag register ends as the carry whatever `X` is; `x[X]`, when it is not the flag register, holds
the sum modulo 256; nothing else changes. -/
def Obligations.AddSetsCarry : Prop :=
  ∀ (s : State) (x y : RegIdx), ∃ t, exec (.addReg x y) s = .next t ∧ t = { s with x := t.x } ∧
    (t.reg 0xF = if 255 < (s.reg x).toNat + (s.reg y).toNat then 1 else 0) ∧
    (x ≠ 0xF → (t.reg x).toNat = ((s.reg x).toNat + (s.reg y).toNat) % 256) ∧
    ∀ k, k ≠ x → k ≠ 0xF → t.reg k = s.reg k

/-- 41_alu R147, R149, R153. The operand roles, the identity of the flag register and the flag written last are the
spec's own (92 D27, D31, D9); that no borrow is minuend at least subtrahend is derived by the spec. SUB computes
`Vx - Vy` and SUBN `Vy - Vx`, modulo 256, into `x[X]`; the flag register ends as 1 for no borrow, else 0. -/
def Obligations.SubtractSetsNoBorrow : Prop :=
  ∀ (s : State) (x y : RegIdx),
    (∃ t, exec (.sub x y) s = .next t ∧ t = { s with x := t.x } ∧
      (t.reg 0xF = if (s.reg y).toNat ≤ (s.reg x).toNat then 1 else 0) ∧
      (x ≠ 0xF → (t.reg x).toNat = ((s.reg x).toNat + 256 - (s.reg y).toNat) % 256) ∧
      ∀ k, k ≠ x → k ≠ 0xF → t.reg k = s.reg k) ∧
    (∃ t, exec (.subn x y) s = .next t ∧ t = { s with x := t.x } ∧
      (t.reg 0xF = if (s.reg x).toNat ≤ (s.reg y).toNat then 1 else 0) ∧
      (x ≠ 0xF → (t.reg x).toNat = ((s.reg y).toNat + 256 - (s.reg x).toNat) % 256) ∧
      ∀ k, k ≠ x → k ≠ 0xF → t.reg k = s.reg k)

/-- 41_alu R148, R150, R153. That `x[X]` is shifted in place, the identity of the flag register and the flag written last
are the spec's own decisions (92 D10, D31, D9; log 9). The flag register ends as the bit shifted out of the old `x[X]`;
`x[X]`, when it is not the flag register, holds half, or twice modulo 256; `Y` is ignored; nothing else changes. -/
def Obligations.ShiftsMoveOneBit : Prop :=
  ∀ (s : State) (x y : RegIdx),
    (∃ t, exec (.shr x y) s = .next t ∧ t = { s with x := t.x } ∧
      (t.reg 0xF).toNat = (s.reg x).toNat % 2 ∧ (x ≠ 0xF → (t.reg x).toNat = (s.reg x).toNat / 2) ∧
      ∀ k, k ≠ x → k ≠ 0xF → t.reg k = s.reg k) ∧
    (∃ t, exec (.shl x y) s = .next t ∧ t = { s with x := t.x } ∧
      (t.reg 0xF).toNat = (s.reg x).toNat / 128 ∧ (x ≠ 0xF → (t.reg x).toNat = 2 * (s.reg x).toNat % 256) ∧
      ∀ k, k ≠ x → k ≠ 0xF → t.reg k = s.reg k)

/-- 41_alu R151, 10_state R34 (92 D15). The draw is a free value, `Config.draw` of the model's own counter (log 3):
whatever byte it is, `x[X]` receives it masked with `NN`, so nothing outside the mask is ever set; one draw is counted;
nothing else changes. -/
def Obligations.RandomAndMasksTheDraw : Prop :=
  ∀ (s : State) (x : RegIdx) (nn : Byte),
    ∃ t, exec (.rnd x nn) s = .next t ∧ t = { s with x := t.x, draws := s.draws + 1 } ∧
      (∀ k, t.reg k = if k = x then Config.draw s.draws &&& nn else s.reg k) ∧ t.reg x &&& ~~~nn = 0

/-! The address register, loads and stores. -/

/-- 42_address_memory R160, R161: load-address sets `I` to `NNN`; add-to-address adds `x[X]` to `I` as 16-bit words, with
no flag and no check in this step; nothing else changes. -/
def Obligations.AddressInstructionsSetI : Prop :=
  ∀ (s : State) (x : RegIdx) (nnn : Addr12),
    (∃ t, exec (.ldI nnn) s = .next t ∧ t = { s with i := t.i } ∧ t.i.toNat = nnn.toNat) ∧
    (∃ t, exec (.addI x) s = .next t ∧ t = { s with i := t.i } ∧
      t.i.toNat = (s.i.toNat + (s.reg x).toNat) % 65536)

/-- 42_address_memory R162. The stride 5 is the spec's general knowledge (92 D21, log 2). `I` becomes `0x050` plus five
times the whole register; the result is at most `0x54B`; nothing else changes. -/
def Obligations.LoadGlyphAddressMultipliesByFive : Prop :=
  ∀ (s : State) (x : RegIdx), ∃ t, exec (.ldF x) s = .next t ∧ t = { s with i := t.i } ∧
    t.i.toNat = 0x050 + (s.reg x).toNat * 5 ∧ t.i.toNat ≤ 0x54B

/-- 42_address_memory R163, where all three addresses lie in memory: the hundreds, tens and units of `x[X]` are stored
at `I`, `I + 1`, `I + 2`; every other byte reads as before; `I` and everything else is unchanged. -/
def Obligations.StoreDigitsWritesThreeBytes : Prop :=
  ∀ (s : State) (x : RegIdx), s.mem.wf = true → s.i.toNat + 2 ≤ 0xFFF →
    ∃ t, exec (.ldB x) s = .next t ∧ t = { s with mem := t.mem } ∧
      (t.mem.read s.i.toNat).toNat = (s.reg x).toNat / 100 ∧
      (t.mem.read (s.i.toNat + 1)).toNat = (s.reg x).toNat / 10 % 10 ∧
      (t.mem.read (s.i.toNat + 2)).toNat = (s.reg x).toNat % 10 ∧
      ∀ a, (a < s.i.toNat ∨ s.i.toNat + 2 < a) → t.mem.read a = s.mem.read a

/-- 42_address_memory R164, where every address lies in memory: `x[k]` is stored at `I + k` for `k` from 0 to `X`, every
other byte reads as before, `I` moves by `X + 1`, nothing else changes. -/
def Obligations.StoreRegistersWritesTheBlock : Prop :=
  ∀ (s : State) (x : RegIdx), s.mem.wf = true → s.i.toNat + x.toNat ≤ 0xFFF →
    ∃ t, exec (.stRegs x) s = .next t ∧ t = { s with mem := t.mem, i := t.i } ∧
      t.i.toNat = s.i.toNat + x.toNat + 1 ∧
      (∀ k : RegIdx, k.toNat ≤ x.toNat → t.mem.read (s.i.toNat + k.toNat) = s.reg k) ∧
      ∀ a, (a < s.i.toNat ∨ s.i.toNat + x.toNat < a) → t.mem.read a = s.mem.read a

/-- 42_address_memory R165, where every address lies in memory: `x[k]` receives the byte at `I + k` for `k` from 0 to
`X`, every other register keeps its value, `I` moves by `X + 1`, nothing else changes. -/
def Obligations.LoadRegistersReadsTheBlock : Prop :=
  ∀ (s : State) (x : RegIdx), s.i.toNat + x.toNat ≤ 0xFFF →
    ∃ t, exec (.ldRegs x) s = .next t ∧ t = { s with x := t.x, i := t.i } ∧
      t.i.toNat = s.i.toNat + x.toNat + 1 ∧
      ∀ k : RegIdx, t.reg k = if k.toNat ≤ x.toNat then s.mem.read (s.i.toNat + k.toNat) else s.reg k

/-- 42_address_memory R163 to R165, 60_exceptions R200, R201. That earlier effects stay (92 D8, log 6), the fatal latch
and its code 1 (92 D7, log 6) and the ascending order (92 D30, log 12) are the spec's own decisions. Where some address
lies above `0xFFF`, the transfer raises at the first: the bytes, or registers, before it stay written, `I` is not
advanced, everything else is as before. -/
def Obligations.TransfersRaiseAtFirstBadAddress : Prop :=
  ∀ (s : State) (x : RegIdx), s.mem.wf = true →
    (0xFFF < s.i.toNat + 2 →
      ∃ t, exec (.ldB x) s = .next t ∧
        t = { s with mem := t.mem, halted := true, errCode := 1, errInfo := s.firstBadAddress } ∧
        (s.i.toNat ≤ 0xFFF → (t.mem.read s.i.toNat).toNat = (s.reg x).toNat / 100) ∧
        (s.i.toNat + 1 ≤ 0xFFF → (t.mem.read (s.i.toNat + 1)).toNat = (s.reg x).toNat / 10 % 10) ∧
        ∀ a, (a < s.i.toNat ∨ 0xFFF < a) → t.mem.read a = s.mem.read a) ∧
    (0xFFF < s.i.toNat + x.toNat →
      ∃ t, exec (.stRegs x) s = .next t ∧
        t = { s with mem := t.mem, halted := true, errCode := 1, errInfo := s.firstBadAddress } ∧
        (∀ k : RegIdx, s.i.toNat + k.toNat ≤ 0xFFF → t.mem.read (s.i.toNat + k.toNat) = s.reg k) ∧
        ∀ a, (a < s.i.toNat ∨ 0xFFF < a) → t.mem.read a = s.mem.read a) ∧
    (0xFFF < s.i.toNat + x.toNat →
      ∃ t, exec (.ldRegs x) s = .next t ∧
        t = { s with x := t.x, halted := true, errCode := 1, errInfo := s.firstBadAddress } ∧
        ∀ k : RegIdx, t.reg k = if s.i.toNat + k.toNat ≤ 0xFFF then s.mem.read (s.i.toNat + k.toNat) else s.reg k)

/-- 42_address_memory R165, the source's property: registers stored and then loaded from the same address have their
original values, whatever the registers held in between, as long as memory was not changed. -/
def Obligations.StoreThenLoadRestoresRegisters : Prop :=
  ∀ (s : State) (x : RegIdx), s.mem.wf = true → s.i.toNat + x.toNat ≤ 0xFFF →
    ∃ t, exec (.stRegs x) s = .next t ∧
      ∀ u : State, u.mem = t.mem → u.i = s.i →
        ∃ v, exec (.ldRegs x) u = .next v ∧ ∀ k : RegIdx, k.toNat ≤ x.toNat → v.reg k = s.reg k

/-! Keys and timers. -/

/-- 44_keys_timers R192. The destination `x[X]` is the spec's general knowledge (92 D26). With no key pressed `pc` goes
back by 2 and nothing else changes; else `x[X]` receives the least pressed key and nothing else changes. -/
def Obligations.BlockUntilKeyLoadsLowestKey : Prop :=
  ∀ (s : State) (x : RegIdx),
    (s.keys = 0 → exec (.ldVxK x) s = .next { s with pc := s.pc - 2 }) ∧
    (s.keys ≠ 0 → ∃ k t, k < 16 ∧ s.keys.getLsbD k = true ∧ (∀ j, j < k → s.keys.getLsbD j = false) ∧
      exec (.ldVxK x) s = .next t ∧ t = { s with x := t.x } ∧ (t.reg x).toNat = k ∧
      ∀ j, j ≠ x → t.reg j = s.reg j)

/-- 44_keys_timers R192, 70_reset_and_hazards R249: with no key pressed, any number of steps on a block-until-key leaves
the whole state exactly as it was. -/
def Obligations.BlockUntilKeySpins : Prop :=
  ∀ (s : State) (x : RegIdx) (n : Nat), s.canFetch → decodeWord s.wordAtPc = .insn (.ldVxK x) → s.keys = 0 →
    Sys2Proof.core.run n s = .next s

/-- 44_keys_timers R193 to R195: read-delay-timer writes `x[X]` with `DT`; set-delay-timer and set-sound-timer write `DT`
and `ST` with `x[X]`, `tone` unchanged; nothing else changes. -/
def Obligations.TimerMovesCopyOneByte : Prop :=
  ∀ (s : State) (x : RegIdx),
    (∃ t, exec (.ldVxDt x) s = .next t ∧ t = { s with x := t.x } ∧
      ∀ k, t.reg k = if k = x then s.dt else s.reg k) ∧
    exec (.ldDtVx x) s = .next { s with dt := s.reg x } ∧
    exec (.ldStVx x) s = .next { s with st := s.reg x }

/-! Host events. -/

/-- 60_exceptions R207: each timer above 0 is decremented by 1, floor at 0; `tone` is 1 when `ST` was above 0 before, else
0; nothing else changes. -/
def Obligations.TickCountsDown : Prop :=
  ∀ s : State, Block.apply .tick (.on s) = .done (.on (tick s)) .quiet ∧
    tick s = { s with dt := (tick s).dt, st := (tick s).st, tone := (tick s).tone } ∧
    (tick s).dt.toNat = s.dt.toNat - 1 ∧ (tick s).st.toNat = s.st.toNat - 1 ∧
    ((tick s).tone = true ↔ 0 < s.st.toNat)

/-- 60_exceptions R207, 70_reset_and_hazards R248, 44_keys_timers R195. The tone as one bit that `Tick` writes is the
spec's own decision (92 D24, log 12). From a state whose sound timer holds `v`, the tone is on after each of the next
`v` ticks and off after every later one, and the timer ends at 0. -/
def Obligations.ToneLastsAsManyTicks : Prop :=
  ∀ (s : State) (k : Nat),
    (tick^[k + 1] s).st.toNat = s.st.toNat - (k + 1) ∧ ((tick^[k + 1] s).tone = true ↔ k < s.st.toNat)

/-- 60_exceptions R209: `SetKeys` replaces the whole latch and changes nothing else; a key-down sets its key and no
other, a key-up clears its key and no other. -/
def Obligations.KeyEventsWriteTheLatch : Prop :=
  ∀ (s : State) (m : BitVec 16) (c : Nibble),
    Block.apply (.setKeys m) (.on s) = .done (.on { s with keys := m }) .quiet ∧
    keyDown c s = { s with keys := (keyDown c s).keys } ∧ keyUp c s = { s with keys := (keyUp c s).keys } ∧
    ∀ k, k < 16 → (keyDown c s).key k = (decide (k = c.toNat) || s.key k) ∧
      (keyUp c s).key k = (decide (k ≠ c.toNat) && s.key k)

/-- 60_exceptions R210, R211: `ClearDirty` clears the dirty flag and changes nothing else; `FbRead` changes nothing and
returns the 2048 pixels, `FB[r][c]` at index `r * 64 + c`, and the dirty flag. -/
def Obligations.FramebufferIsReadRowMajor : Prop :=
  ∀ s : State, Block.apply .clearDirty (.on s) = .done (.on { s with dirty := false }) .quiet ∧
    ∃ f, Block.apply .fbRead (.on s) = .done (.on s) (.snapshot f) ∧ f.dirty = s.dirty ∧ f.pixels.length = 2048 ∧
      ∀ r c, r < 32 → c < 64 → f.pixels[r * 64 + c]? = some (s.pixel r c)

/-- 60_exceptions R202, R217. The absorbing halted state and the events that still act on it are the spec's own
decisions (92 D7, D17, log 6); that the result is read by `stepEnding` is the model's choice (log 4). On a halted block
a step changes nothing and reports the terminal result again; no event but `Reset` clears the fatal latch or changes
anything but the timers, the tone, the key latch and the dirty flag. -/
def Obligations.HaltedBlockIsAbsorbing : Prop :=
  ∀ (s : State) (e : Event), s.halted = true → (∀ image, e ≠ .reset image) →
    Block.apply .step (.on s) = .done (.on s) (.ended (.fatal s.errCode s.errInfo)) ∧
    ∃ t r, Block.apply e (.on s) = .done (.on t) r ∧
      t = { s with dt := t.dt, st := t.st, tone := t.tone, keys := t.keys, dirty := t.dirty }

/-- 60_exceptions R215, 20_memory R76, 70_reset_and_hazards R240. Loading as the argument of `Reset` is the spec's own
decision (92 D18); the block that is off is the model's form (log 14). An image of more than 3584 bytes is rejected with
`RomTooLargeError` and the block keeps what it had; while the block is off no event but `Reset` is defined. -/
def Obligations.OversizeImageChangesNothing : Prop :=
  ∀ (image : List Byte) (b : Block) (e : Event),
    (3584 < image.length → Block.apply (.reset image) b = .done b .romTooLarge) ∧
    ((∀ im, e ≠ .reset im) → Block.apply e .off = .notDefined)

/-- 10_state R36: after `Reset(image)` the program counter is `0x200`, and the first byte of the image is there. -/
def Obligations.ResetStartsAtTheVector : Prop :=
  State.reset.pc = 0x200 ∧
    ∀ (image : List Byte) (b : Block), image.length ≤ 3584 →
      ∃ t, Block.apply (.reset image) b = .done (.on t) .quiet ∧ t.pc = 0x200 ∧
        ∀ v rest, image = v :: rest → t.mem.read 0x200 = v

/-- 10_state R37 to R40, 20_memory R62, 70_reset_and_hazards R240. The glyph bytes are the spec's general knowledge (92
D21, log 2); the zeros are its decision and derivations (92 D3, R38, R39, log 1); `draws` is kept and `warnings` emptied
by the model's choice (logs 3, 4). Memory holds the image from `0x200`, the bytes of the parameter `GLYPH_ROM` from
`0x050` and zero elsewhere; glyph `d` lies at `0x050 + 5*d` with the bytes of the table of R62; every register, timer,
stack entry, pixel, key and latch is 0. -/
def Obligations.ResetLeavesGlyphsImageAndZeros : Prop :=
  ∀ (image : List Byte) (b : Block), image.length ≤ 3584 →
    ∃ t, Block.apply (.reset image) b = .done (.on t) .quiet ∧
      (∀ a, a < 4096 → t.mem.read a =
        if 0x200 ≤ a ∧ a < 0x200 + image.length then image.getD (a - 0x200) 0
        else if 0x050 ≤ a ∧ a < 0x0A0 then Config.glyphRom.getD (a - 0x050) 0 else 0) ∧
      (∀ d, d < 16 → (List.range 5).map (fun k => t.mem.read (0x050 + 5 * d + k)) =
        ([[0xF0, 0x90, 0x90, 0x90, 0xF0], [0x20, 0x60, 0x20, 0x20, 0x70], [0xF0, 0x10, 0xF0, 0x80, 0xF0],
          [0xF0, 0x10, 0xF0, 0x10, 0xF0], [0x90, 0x90, 0xF0, 0x10, 0x10], [0xF0, 0x80, 0xF0, 0x10, 0xF0],
          [0xF0, 0x80, 0xF0, 0x90, 0xF0], [0xF0, 0x10, 0x20, 0x40, 0x40], [0xF0, 0x90, 0xF0, 0x90, 0xF0],
          [0xF0, 0x90, 0xF0, 0x10, 0xF0], [0xF0, 0x90, 0xF0, 0x90, 0x90], [0xE0, 0x90, 0xE0, 0x90, 0xE0],
          [0xF0, 0x80, 0x80, 0x80, 0xF0], [0xE0, 0x90, 0x90, 0x90, 0xE0], [0xF0, 0x80, 0xF0, 0x80, 0xF0],
          [0xF0, 0x80, 0xF0, 0x80, 0x80]] : List (List Byte)).getD d []) ∧
      (∀ k, t.reg k = 0) ∧ t.i = 0 ∧ t.sp = 0 ∧ (∀ (k : Nat) (h : k < 16), t.stack[k] = 0) ∧ t.dt = 0 ∧ t.st = 0 ∧
      t.tone = false ∧ (∀ r c, r < 32 → c < 64 → t.pixel r c = false) ∧ t.dirty = false ∧ t.keys = 0 ∧
      t.halted = false ∧ t.errCode = 0 ∧ t.errInfo = 0 ∧ t.draws = b.draws ∧ t.warnings = []

/-! Runs. -/

/-- 70_reset_and_hazards R242 (derived by the spec): a jump to its own address is a fixed point of `Step`, any number of
times. -/
def Obligations.JumpToSelfIsAFixedPoint : Prop :=
  ∀ (s : State) (a : Addr12) (n : Nat), s.canFetch → s.pc = a.setWidth 16 →
    s.wordAtPc = 0x1000 ||| a.setWidth 16 → Sys2Proof.core.run n s = .next s

/-- 40_flow R133, 70_reset_and_hazards R245, 42_address_memory R161, R164, R165. That the violation is reported one step
later is the spec's own decision (92 D32), as are the bound on `I` (92 D5), that the guard checks `pc` before `I` (92 D6),
and the fatal latch and its code 1 (92 D7, log 6). An add-to-address that
leaves `I` above `0xFFF`, and a store-registers or load-registers whose last byte is at `0xFFF`, complete; the next step
raises `MemoryBoundsError` of that `I`, or of `pc` where the instruction stood at `0xFFE` and `pc` is above `0xFFF` too. -/
def Obligations.OutOfRangeAddressFaultsNextStep : Prop :=
  ∀ (s : State) (x : RegIdx), s.canFetch →
    (decodeWord s.wordAtPc = .insn (.addI x) → 0xFFF < s.i.toNat + (s.reg x).toNat →
      ∃ t, step s = .next t ∧ t = { s with pc := s.pc + 2, i := t.i } ∧ t.i.toNat = s.i.toNat + (s.reg x).toNat ∧
        t.raisesBounds (if s.pc = 0xFFE then 0x1000 else t.i)) ∧
    (decodeWord s.wordAtPc = .insn (.stRegs x) → s.i.toNat + x.toNat = 0xFFF →
      ∃ t, step s = .next t ∧ t = { s with pc := s.pc + 2, mem := t.mem, i := 0x1000 } ∧ t.raisesBounds 0x1000) ∧
    (decodeWord s.wordAtPc = .insn (.ldRegs x) → s.i.toNat + x.toNat = 0xFFF →
      ∃ t, step s = .next t ∧ t = { s with pc := s.pc + 2, x := t.x, i := 0x1000 } ∧ t.raisesBounds 0x1000)

/-- 40_flow R133, 70_reset_and_hazards R245, 40_flow R124, R125, R128 to R132, 44_keys_timers R190, R191. That the
violation is reported one step later (92 D32) and the fatal latch and its code 1 (92 D7, log 6) are the spec's own
decisions. A sequential advance from `0xFFE` (an
instruction that does not move `pc`, a satisfied block-until-key, an unknown word), a skip near the top of memory, a return
to an entry above `0xFFF` and a jump-with-offset whose sum is above `0xFFF` complete with that `pc`; the next step raises
`MemoryBoundsError` of it. -/
def Obligations.OutOfRangePcFaultsNextStep : Prop :=
  ∀ (s : State) (x y : RegIdx) (nn : Byte) (nnn : Addr12), s.canFetch →
    (∀ t, s.pc = 0xFFE → step s = .next t → t.halted = false →
      ((∃ w, decodeWord s.wordAtPc = .unknown w) ∨
        ∃ i, decodeWord s.wordAtPc = .insn i ∧ (¬ mayMovePc i ∨ (i = .ldVxK x ∧ s.keys ≠ 0))) →
      t.pc = 0x1000 ∧ t.raisesBounds 0x1000) ∧
    (decodeWord s.wordAtPc = .insn (.seImm x nn) → s.stepsToPc (s.pc + if s.reg x = nn then 4 else 2)) ∧
    (decodeWord s.wordAtPc = .insn (.sneImm x nn) → s.stepsToPc (s.pc + if s.reg x = nn then 2 else 4)) ∧
    (decodeWord s.wordAtPc = .insn (.seReg x y) → s.stepsToPc (s.pc + if s.reg x = s.reg y then 4 else 2)) ∧
    (decodeWord s.wordAtPc = .insn (.sneReg x y) → s.stepsToPc (s.pc + if s.reg x = s.reg y then 2 else 4)) ∧
    (decodeWord s.wordAtPc = .insn (.skp x) →
      s.stepsToPc (s.pc + if s.keys.getLsbD ((s.reg x).toNat % 16) = true then 4 else 2)) ∧
    (decodeWord s.wordAtPc = .insn (.sknp x) →
      s.stepsToPc (s.pc + if s.keys.getLsbD ((s.reg x).toNat % 16) = true then 2 else 4)) ∧
    (decodeWord s.wordAtPc = .insn (.jpVx x nnn) →
      ∃ p : Word, p.toNat = (s.reg x).toNat + nnn.toNat ∧ s.stepsToPc p) ∧
    (decodeWord s.wordAtPc = .insn .ret → ∀ h : s.sp.toNat - 1 < 16, s.sp ≠ 0 →
      ∃ t, step s = .next t ∧ t = { s with sp := s.sp - 1, pc := s.stack[s.sp.toNat - 1] } ∧
        (0xFFF < t.pc.toNat → t.raisesBounds t.pc))
end

