-- ==== Sys2Proof/Laws/Decode.lean ====
section
/-! SUPPORT. The fields of a packed word (30_encoding R91, R93), and a packed word under the masks of the opcode map
(R94). -/

namespace Sys2Proof

/-! Words and fields as numbers: `w = OP*0x1000 + X*0x100 + Y*0x10 + N`. -/

theorem toNat_packA (op : Nibble) (nnn : Addr12) : (packA op nnn).toNat = op.toNat * 4096 + nnn.toNat := by
  rw [packA, BitVec.toNat_append, ← Nat.shiftLeft_add_eq_or_of_lt nnn.isLt, Nat.shiftLeft_eq]

theorem toNat_packXB (op : Nibble) (x : RegIdx) (nn : Byte) :
    (packXB op x nn).toNat = op.toNat * 4096 + x.toNat * 256 + nn.toNat := by
  rw [packXB, BitVec.toNat_append, ← Nat.shiftLeft_add_eq_or_of_lt nn.isLt, BitVec.toNat_append,
    ← Nat.shiftLeft_add_eq_or_of_lt x.isLt, Nat.shiftLeft_eq, Nat.shiftLeft_eq]
  omega

theorem toNat_packXY (op : Nibble) (x y : RegIdx) (n : Nibble) :
    (packXY op x y n).toNat = op.toNat * 4096 + x.toNat * 256 + y.toNat * 16 + n.toNat := by
  rw [packXY, BitVec.toNat_append, ← Nat.shiftLeft_add_eq_or_of_lt n.isLt, BitVec.toNat_append,
    ← Nat.shiftLeft_add_eq_or_of_lt y.isLt, BitVec.toNat_append, ← Nat.shiftLeft_add_eq_or_of_lt x.isLt,
    Nat.shiftLeft_eq, Nat.shiftLeft_eq, Nat.shiftLeft_eq]
  omega

theorem toNat_fieldX (w : Word) : (fieldX w).toNat = w.toNat / 256 % 16 := by
  simp [fieldX, Nat.shiftRight_eq_div_pow]

theorem toNat_fieldY (w : Word) : (fieldY w).toNat = w.toNat / 16 % 16 := by
  simp [fieldY, Nat.shiftRight_eq_div_pow]

theorem toNat_fieldN (w : Word) : (fieldN w).toNat = w.toNat % 16 := by
  simp [fieldN]

theorem toNat_fieldNN (w : Word) : (fieldNN w).toNat = w.toNat % 256 := by
  simp [fieldNN]

theorem toNat_fieldNNN (w : Word) : (fieldNNN w).toNat = w.toNat % 4096 := by
  simp [fieldNNN]

theorem toNat_jumpOffsetReg (nnn : Addr12) : (jumpOffsetReg nnn).toNat = nnn.toNat / 256 := by
  have := nnn.isLt
  simp only [jumpOffsetReg, BitVec.extractLsb'_toNat, Nat.shiftRight_eq_div_pow]
  omega

/-! The fields of a packed word. -/

@[simp] theorem fieldNNN_packA (op : Nibble) (nnn : Addr12) : fieldNNN (packA op nnn) = nnn := by
  have := nnn.isLt
  exact BitVec.eq_of_toNat_eq (by rw [toNat_fieldNNN, toNat_packA]; omega)

@[simp] theorem fieldX_packA (op : Nibble) (nnn : Addr12) : fieldX (packA op nnn) = jumpOffsetReg nnn := by
  have := nnn.isLt
  have := op.isLt
  exact BitVec.eq_of_toNat_eq (by rw [toNat_fieldX, toNat_packA, toNat_jumpOffsetReg]; omega)

@[simp] theorem fieldX_packXB (op : Nibble) (x : RegIdx) (nn : Byte) : fieldX (packXB op x nn) = x := by
  have := nn.isLt
  have := x.isLt
  exact BitVec.eq_of_toNat_eq (by rw [toNat_fieldX, toNat_packXB]; omega)

@[simp] theorem fieldNN_packXB (op : Nibble) (x : RegIdx) (nn : Byte) : fieldNN (packXB op x nn) = nn := by
  have := nn.isLt
  exact BitVec.eq_of_toNat_eq (by rw [toNat_fieldNN, toNat_packXB]; omega)

@[simp] theorem fieldX_packXY (op : Nibble) (x y : RegIdx) (n : Nibble) : fieldX (packXY op x y n) = x := by
  have := n.isLt
  have := y.isLt
  have := x.isLt
  exact BitVec.eq_of_toNat_eq (by rw [toNat_fieldX, toNat_packXY]; omega)

@[simp] theorem fieldY_packXY (op : Nibble) (x y : RegIdx) (n : Nibble) : fieldY (packXY op x y n) = y := by
  have := n.isLt
  have := y.isLt
  exact BitVec.eq_of_toNat_eq (by rw [toNat_fieldY, toNat_packXY]; omega)

@[simp] theorem fieldN_packXY (op : Nibble) (x y : RegIdx) (n : Nibble) : fieldN (packXY op x y n) = n := by
  have := n.isLt
  exact BitVec.eq_of_toNat_eq (by rw [toNat_fieldN, toNat_packXY]; omega)

/-! A packed word under the masks of the opcode map: the fixed digits stay, the fields become 0. -/

theorem packA_and_family (op : Nibble) (nnn : Addr12) : packA op nnn &&& 0xF000 = packA op 0 := by
  have hm : (0xF000 : Word) = (0xF : Nibble) ++ (0 : Addr12) := by decide
  rw [hm, packA, BitVec.and_append, packA]
  congr 1
  · revert op; decide
  · exact BitVec.and_zero

theorem packXB_eq_packA (op : Nibble) (x : RegIdx) (nn : Byte) : packXB op x nn = packA op (x ++ nn) :=
  BitVec.eq_of_toNat_eq (by
    rw [toNat_packXB, toNat_packA, BitVec.toNat_append, ← Nat.shiftLeft_add_eq_or_of_lt nn.isLt, Nat.shiftLeft_eq]
    omega)

theorem packXY_eq_packXB (op : Nibble) (x y : RegIdx) (n : Nibble) : packXY op x y n = packXB op x (y ++ n) :=
  BitVec.eq_of_toNat_eq (by
    rw [toNat_packXY, toNat_packXB, BitVec.toNat_append, ← Nat.shiftLeft_add_eq_or_of_lt n.isLt, Nat.shiftLeft_eq]
    omega)

theorem packXB_and_family (op : Nibble) (x : RegIdx) (nn : Byte) : packXB op x nn &&& 0xF000 = packA op 0 := by
  rw [packXB_eq_packA, packA_and_family]

theorem packXB_and_subOpcode (op : Nibble) (x : RegIdx) (nn : Byte) : packXB op x nn &&& 0xF0FF = packXB op 0 nn := by
  have hm : (0xF0FF : Word) = ((0xF : Nibble) ++ (0 : RegIdx)) ++ (0xFF : Byte) := by decide
  rw [hm, packXB, BitVec.and_append, BitVec.and_append, packXB]
  congr 1
  · congr 1
    · revert op; decide
    · exact BitVec.and_zero
  · exact BitVec.and_allOnes

theorem packXY_and_subOpcode (op : Nibble) (x y : RegIdx) (n : Nibble) :
    packXY op x y n &&& 0xF00F = packXY op 0 0 n := by
  have hm : (0xF00F : Word) = (((0xF : Nibble) ++ (0 : RegIdx)) ++ (0 : RegIdx)) ++ (0xF : Nibble) := by decide
  rw [hm, packXY, BitVec.and_append, BitVec.and_append, BitVec.and_append, packXY]
  congr 1
  · congr 1
    · congr 1
      · revert op; decide
      · exact BitVec.and_zero
    · exact BitVec.and_zero
  · exact BitVec.and_allOnes

theorem packXY_and_family (op : Nibble) (x y : RegIdx) (n : Nibble) : packXY op x y n &&& 0xF000 = packA op 0 := by
  rw [packXY_eq_packXB, packXB_and_family]

/-! Bytes and words (20_memory R66). -/

@[simp] theorem wordOfBytes_high_low (w : Word) : wordOfBytes (highByte w) (lowByte w) = w :=
  BitVec.eq_of_toNat_eq (by
    have := w.isLt
    rw [wordOfBytes, BitVec.toNat_append, ← Nat.shiftLeft_add_eq_or_of_lt (lowByte w).isLt, Nat.shiftLeft_eq]
    simp only [highByte, lowByte, BitVec.extractLsb'_toNat, Nat.shiftRight_eq_div_pow]
    omega)

/-- The decoder on bytes is the decoder on the word of the first two. -/
theorem decodeBytes_cons (hi lo : Byte) (rest : List Byte) :
    decodeBytes (hi :: lo :: rest) =
      match decodeWord (wordOfBytes hi lo) with
      | .insn i => .ok (i, rest)
      | .unknown w => .error (.unknownWord w) := rfl

/-- The table's word of 16 bits decodes as the word it is. -/
theorem decodeTableWord_eq (w : Nat) :
    decodeTableWord 16 w = match decodeWord (BitVec.ofNat 16 w) with
      | .insn i => some i
      | .unknown _ => none := by
  have hw : tableWord 16 w = BitVec.ofNat 16 w := BitVec.eq_of_toNat_eq (by simp [tableWord])
  unfold decodeTableWord
  rw [decodeBytes_cons, wordOfBytes_high_low, hw]
  cases decodeWord (BitVec.ofNat 16 w) <;> rfl

end Sys2Proof
end

