-- ==== Sys2Proof/Laws/Memory.lean ====
section
/-! SUPPORT. What the memory operations do: read after write, and the canonical form kept by every one of them. -/

namespace Sys2Proof.Machine

/-! Read after write. -/

theorem Memory.read_cell (a : Nat) (v : Byte) (m : Memory) (h : m.read a = Memory.initial a) (b : Nat) :
    (Memory.cell a v m).read b = if b = a then v else m.read b := by
  unfold Memory.cell
  by_cases hv : v = Memory.initial a
  · by_cases hb : b = a
    · subst hb; simp [hv, h]
    · simp [hv, hb]
  · simp [hv, Memory.read]

/-- Below its first cell a well-formed memory reads as its reset contents. -/
theorem Memory.read_below {lo : Nat} {m : Memory} (h : Memory.wfFrom lo m = true) {a : Nat} (ha : a < lo) :
    m.read a = Memory.initial a := by
  induction m generalizing lo with
  | nil => rfl
  | cons c m ih =>
    obtain ⟨b, w⟩ := c
    simp only [Memory.wfFrom, Bool.and_eq_true, decide_eq_true_eq] at h
    have hab : a ≠ b := by omega
    simp [Memory.read, hab, ih h.2 (by omega)]

theorem Memory.wfFrom_mono {lo lo' : Nat} {m : Memory} (h : Memory.wfFrom lo m = true) (hl : lo' ≤ lo) :
    Memory.wfFrom lo' m = true := by
  cases m with
  | nil => rfl
  | cons c m =>
    obtain ⟨b, w⟩ := c
    simp only [Memory.wfFrom, Bool.and_eq_true, decide_eq_true_eq] at h ⊢
    exact ⟨⟨⟨by omega, h.1.1.2⟩, h.1.2⟩, h.2⟩

/-- Where the first cell lies above the address, a write and the cell it leaves. -/
theorem Memory.wfFrom_cell {lo a : Nat} {v : Byte} {m : Memory} (h : Memory.wfFrom (a + 1) m = true) (hl : lo ≤ a)
    (ha : a < Config.memSize) : Memory.wfFrom lo (Memory.cell a v m) = true := by
  unfold Memory.cell
  by_cases hv : v = Memory.initial a
  · simpa [hv] using Memory.wfFrom_mono h (by omega)
  · have hne : (v == Memory.initial a) = false := by simpa using hv
    simp [hv, Memory.wfFrom, hl, ha, h, bne, hne]

/-- A write keeps the canonical form. -/
theorem Memory.wfFrom_write {lo : Nat} {m : Memory} (h : Memory.wfFrom lo m = true) {a : Nat} (v : Byte) (hl : lo ≤ a)
    (ha : a < Config.memSize) : Memory.wfFrom lo (m.write a v) = true := by
  induction m generalizing lo with
  | nil => exact Memory.wfFrom_cell rfl hl ha
  | cons c m ih =>
    obtain ⟨b, w⟩ := c
    have h' := h
    simp only [Memory.wfFrom, Bool.and_eq_true, decide_eq_true_eq] at h
    simp only [Memory.write]
    split
    · next hab =>
      refine Memory.wfFrom_cell ?_ hl ha
      simp only [Memory.wfFrom, Bool.and_eq_true, decide_eq_true_eq]
      exact ⟨⟨⟨by omega, h.1.1.2⟩, h.1.2⟩, h.2⟩
    · split
      · next hab =>
        subst hab
        exact Memory.wfFrom_cell h.2 hl ha
      · simp only [Memory.wfFrom, Bool.and_eq_true, decide_eq_true_eq]
        exact ⟨h.1, ih h.2 (by omega)⟩

/-- A write keeps the canonical form. -/
theorem Memory.wf_write {m : Memory} (h : m.wf = true) {a : Nat} (v : Byte) (ha : a < Config.memSize) :
    (m.write a v).wf = true := Memory.wfFrom_write h v (Nat.zero_le _) ha

/-- Read after write: the byte written at its address, every other address as before. -/
theorem Memory.read_write_from {lo : Nat} {m : Memory} (h : Memory.wfFrom lo m = true) (a : Nat) (v : Byte) (b : Nat) :
    (m.write a v).read b = if b = a then v else m.read b := by
  induction m generalizing lo with
  | nil => exact Memory.read_cell a v [] rfl b
  | cons c m ih =>
    obtain ⟨d, w⟩ := c
    have h' := h
    simp only [Memory.wfFrom, Bool.and_eq_true, decide_eq_true_eq] at h
    simp only [Memory.write]
    split
    · next had =>
      refine Memory.read_cell a v _ ?_ b
      have hne : a ≠ d := by omega
      simp [Memory.read, hne, Memory.read_below h.2 (show a < d + 1 by omega)]
    · split
      · next had =>
        subst had
        rw [Memory.read_cell a v m (Memory.read_below h.2 (by omega)) b]
        by_cases hb : b = a <;> simp [Memory.read, hb]
      · next hda =>
        simp only [Memory.read, ih h.2]
        by_cases hb : b = d
        · subst hb; simp [Ne.symm hda]
        · simp [hb]

/-- Read after write: the byte written at its address, every other address as before. -/
theorem Memory.read_write {m : Memory} (h : m.wf = true) (a : Nat) (v : Byte) (b : Nat) :
    (m.write a v).read b = if b = a then v else m.read b := Memory.read_write_from h a v b

/-- Writing a list of bytes keeps the canonical form. -/
theorem Memory.wf_writeList {m : Memory} (h : m.wf = true) {a : Nat} (vs : List Byte)
    (ha : a + vs.length ≤ Config.memSize) : (m.writeList a vs).wf = true := by
  induction vs generalizing m a with
  | nil => exact h
  | cons v vs ih =>
    simp only [List.length_cons] at ha
    exact ih (Memory.wf_write h v (by omega)) (by omega)

/-- Writing a list of bytes: byte `k` of the list at `a + k`, every other address as before. -/
theorem Memory.read_writeList {m : Memory} (h : m.wf = true) {a : Nat} (vs : List Byte)
    (ha : a + vs.length ≤ Config.memSize) (b : Nat) :
    (m.writeList a vs).read b = if a ≤ b ∧ b < a + vs.length then vs.getD (b - a) 0 else m.read b := by
  induction vs generalizing m a with
  | nil =>
    simp [Memory.writeList]
  | cons v vs ih =>
    simp only [List.length_cons] at ha ⊢
    rw [Memory.writeList, ih (Memory.wf_write h v (by omega)) (by omega), Memory.read_write h]
    by_cases hb : b = a
    · subst hb
      simp
    · by_cases hr : a + 1 ≤ b ∧ b < a + 1 + vs.length
      · have hr' : a ≤ b ∧ b < a + (vs.length + 1) := by omega
        obtain ⟨d, hd⟩ : ∃ d, b - a = d + 1 := ⟨b - a - 1, by omega⟩
        have hd' : b - (a + 1) = d := by omega
        rw [if_pos hr, if_pos hr', hd, hd', List.getD_cons_succ]
      · have hr' : ¬(a ≤ b ∧ b < a + (vs.length + 1)) := by omega
        rw [if_neg hr, if_neg hr', if_neg hb]

/-! What an unlisted address reads as. -/

/-- The bytes of `GLYPH_ROM` at `0x050` to `0x09F`, and zero elsewhere. -/
theorem Memory.initial_eq (a : Nat) :
    Memory.initial a = if 0x050 ≤ a ∧ a < 0x0A0 then Config.glyphRom.getD (a - 0x050) 0 else 0 := by
  have hlen : Config.glyphRom.length = 80 := rfl
  simp only [Memory.initial, resetByte, Config.glyphBase]
  by_cases h1 : 0x050 ≤ a
  · by_cases h2 : a < 0x0A0
    · rw [if_pos h1, if_pos ⟨h1, h2⟩]
    · rw [if_pos h1, if_neg (fun h => h2 h.2), List.getD_eq_default _ _ (by omega)]
  · rw [if_neg h1, if_neg (fun h => h1 h.1)]

/-! The cells of an image. -/

theorem Memory.wfFrom_imageCells (a : Nat) (image : List Byte) (h : a + image.length ≤ Config.memSize) :
    Memory.wfFrom a (Memory.imageCells a image) = true := by
  induction image generalizing a with
  | nil => rfl
  | cons v vs ih =>
    simp only [List.length_cons] at h
    exact Memory.wfFrom_cell (ih (a + 1) (by omega)) (le_refl a) (by omega)

/-- The memory of an image holds byte `k` of the image at `a + k` and its reset contents elsewhere. -/
theorem Memory.read_imageCells (a : Nat) (image : List Byte) (h : a + image.length ≤ Config.memSize) (b : Nat) :
    (Memory.imageCells a image).read b =
      if a ≤ b ∧ b < a + image.length then image.getD (b - a) 0 else Memory.initial b := by
  induction image generalizing a with
  | nil =>
    simp [Memory.imageCells, Memory.read]
  | cons v vs ih =>
    simp only [List.length_cons] at h ⊢
    have hw := Memory.wfFrom_imageCells (a + 1) vs (by omega)
    rw [Memory.imageCells, Memory.read_cell a v _ (Memory.read_below hw (by omega)) b, ih (a + 1) (by omega)]
    by_cases hb : b = a
    · subst hb
      simp
    · by_cases hr : a + 1 ≤ b ∧ b < a + 1 + vs.length
      · have hr' : a ≤ b ∧ b < a + (vs.length + 1) := by omega
        obtain ⟨d, hd⟩ : ∃ d, b - a = d + 1 := ⟨b - a - 1, by omega⟩
        have hd' : b - (a + 1) = d := by omega
        rw [if_neg hb, if_pos hr, if_pos hr', hd, hd', List.getD_cons_succ]
      · have hr' : ¬(a ≤ b ∧ b < a + (vs.length + 1)) := by omega
        rw [if_neg hb, if_neg hr, if_neg hr']

/-- The memory at reset is in canonical form. -/
theorem Memory.wf_reset : State.reset.mem.wf = true := rfl

/-- The memory of `Reset(image)` is in canonical form. -/
theorem Memory.wf_resetState (image : List Byte) (d : Nat) (h : imageFits image = true) :
    (resetState image d).mem.wf = true := by
  have h' : image.length ≤ 3584 := by simpa [imageFits] using h
  exact Memory.wfFrom_mono (Memory.wfFrom_imageCells _ image (by simp only [Config.programBase, Config.memSize]; omega))
    (Nat.zero_le _)

end Sys2Proof.Machine
end

