-- ==== Sys2Proof/Laws/State.lean ====
section
/-! SUPPORT. One lemma per field and per update of the state, each true by unfolding the update, so that no later proof
unfolds a record update. -/

namespace Sys2Proof.Machine

variable (s : State)

/-! `setReg`. -/

@[simp] theorem State.setReg_x (k : RegIdx) (v : Byte) : (s.setReg k v).x = s.x.set k.toNat v k.isLt := rfl
@[simp] theorem State.setReg_i (k : RegIdx) (v : Byte) : (s.setReg k v).i = s.i := rfl
@[simp] theorem State.setReg_pc (k : RegIdx) (v : Byte) : (s.setReg k v).pc = s.pc := rfl
@[simp] theorem State.setReg_sp (k : RegIdx) (v : Byte) : (s.setReg k v).sp = s.sp := rfl
@[simp] theorem State.setReg_stack (k : RegIdx) (v : Byte) : (s.setReg k v).stack = s.stack := rfl
@[simp] theorem State.setReg_dt (k : RegIdx) (v : Byte) : (s.setReg k v).dt = s.dt := rfl
@[simp] theorem State.setReg_st (k : RegIdx) (v : Byte) : (s.setReg k v).st = s.st := rfl
@[simp] theorem State.setReg_tone (k : RegIdx) (v : Byte) : (s.setReg k v).tone = s.tone := rfl
@[simp] theorem State.setReg_mem (k : RegIdx) (v : Byte) : (s.setReg k v).mem = s.mem := rfl
@[simp] theorem State.setReg_fb (k : RegIdx) (v : Byte) : (s.setReg k v).fb = s.fb := rfl
@[simp] theorem State.setReg_dirty (k : RegIdx) (v : Byte) : (s.setReg k v).dirty = s.dirty := rfl
@[simp] theorem State.setReg_keys (k : RegIdx) (v : Byte) : (s.setReg k v).keys = s.keys := rfl
@[simp] theorem State.setReg_halted (k : RegIdx) (v : Byte) : (s.setReg k v).halted = s.halted := rfl
@[simp] theorem State.setReg_errCode (k : RegIdx) (v : Byte) : (s.setReg k v).errCode = s.errCode := rfl
@[simp] theorem State.setReg_errInfo (k : RegIdx) (v : Byte) : (s.setReg k v).errInfo = s.errInfo := rfl
@[simp] theorem State.setReg_draws (k : RegIdx) (v : Byte) : (s.setReg k v).draws = s.draws := rfl
@[simp] theorem State.setReg_warnings (k : RegIdx) (v : Byte) : (s.setReg k v).warnings = s.warnings := rfl

/-! `setFlag`. -/

@[simp] theorem State.setFlag_i (b : Bool) : (s.setFlag b).i = s.i := rfl
@[simp] theorem State.setFlag_pc (b : Bool) : (s.setFlag b).pc = s.pc := rfl
@[simp] theorem State.setFlag_sp (b : Bool) : (s.setFlag b).sp = s.sp := rfl
@[simp] theorem State.setFlag_stack (b : Bool) : (s.setFlag b).stack = s.stack := rfl
@[simp] theorem State.setFlag_dt (b : Bool) : (s.setFlag b).dt = s.dt := rfl
@[simp] theorem State.setFlag_st (b : Bool) : (s.setFlag b).st = s.st := rfl
@[simp] theorem State.setFlag_tone (b : Bool) : (s.setFlag b).tone = s.tone := rfl
@[simp] theorem State.setFlag_mem (b : Bool) : (s.setFlag b).mem = s.mem := rfl
@[simp] theorem State.setFlag_fb (b : Bool) : (s.setFlag b).fb = s.fb := rfl
@[simp] theorem State.setFlag_dirty (b : Bool) : (s.setFlag b).dirty = s.dirty := rfl
@[simp] theorem State.setFlag_keys (b : Bool) : (s.setFlag b).keys = s.keys := rfl
@[simp] theorem State.setFlag_halted (b : Bool) : (s.setFlag b).halted = s.halted := rfl
@[simp] theorem State.setFlag_errCode (b : Bool) : (s.setFlag b).errCode = s.errCode := rfl
@[simp] theorem State.setFlag_errInfo (b : Bool) : (s.setFlag b).errInfo = s.errInfo := rfl
@[simp] theorem State.setFlag_draws (b : Bool) : (s.setFlag b).draws = s.draws := rfl
@[simp] theorem State.setFlag_warnings (b : Bool) : (s.setFlag b).warnings = s.warnings := rfl

/-! `setI`. -/

@[simp] theorem State.setI_x (v : Word) : (s.setI v).x = s.x := rfl
@[simp] theorem State.setI_i (v : Word) : (s.setI v).i = v := rfl
@[simp] theorem State.setI_pc (v : Word) : (s.setI v).pc = s.pc := rfl
@[simp] theorem State.setI_sp (v : Word) : (s.setI v).sp = s.sp := rfl
@[simp] theorem State.setI_stack (v : Word) : (s.setI v).stack = s.stack := rfl
@[simp] theorem State.setI_dt (v : Word) : (s.setI v).dt = s.dt := rfl
@[simp] theorem State.setI_st (v : Word) : (s.setI v).st = s.st := rfl
@[simp] theorem State.setI_tone (v : Word) : (s.setI v).tone = s.tone := rfl
@[simp] theorem State.setI_mem (v : Word) : (s.setI v).mem = s.mem := rfl
@[simp] theorem State.setI_fb (v : Word) : (s.setI v).fb = s.fb := rfl
@[simp] theorem State.setI_dirty (v : Word) : (s.setI v).dirty = s.dirty := rfl
@[simp] theorem State.setI_keys (v : Word) : (s.setI v).keys = s.keys := rfl
@[simp] theorem State.setI_halted (v : Word) : (s.setI v).halted = s.halted := rfl
@[simp] theorem State.setI_errCode (v : Word) : (s.setI v).errCode = s.errCode := rfl
@[simp] theorem State.setI_errInfo (v : Word) : (s.setI v).errInfo = s.errInfo := rfl
@[simp] theorem State.setI_draws (v : Word) : (s.setI v).draws = s.draws := rfl
@[simp] theorem State.setI_warnings (v : Word) : (s.setI v).warnings = s.warnings := rfl

/-! `setPc`. -/

@[simp] theorem State.setPc_x (v : Word) : (s.setPc v).x = s.x := rfl
@[simp] theorem State.setPc_i (v : Word) : (s.setPc v).i = s.i := rfl
@[simp] theorem State.setPc_pc (v : Word) : (s.setPc v).pc = v := rfl
@[simp] theorem State.setPc_sp (v : Word) : (s.setPc v).sp = s.sp := rfl
@[simp] theorem State.setPc_stack (v : Word) : (s.setPc v).stack = s.stack := rfl
@[simp] theorem State.setPc_dt (v : Word) : (s.setPc v).dt = s.dt := rfl
@[simp] theorem State.setPc_st (v : Word) : (s.setPc v).st = s.st := rfl
@[simp] theorem State.setPc_tone (v : Word) : (s.setPc v).tone = s.tone := rfl
@[simp] theorem State.setPc_mem (v : Word) : (s.setPc v).mem = s.mem := rfl
@[simp] theorem State.setPc_fb (v : Word) : (s.setPc v).fb = s.fb := rfl
@[simp] theorem State.setPc_dirty (v : Word) : (s.setPc v).dirty = s.dirty := rfl
@[simp] theorem State.setPc_keys (v : Word) : (s.setPc v).keys = s.keys := rfl
@[simp] theorem State.setPc_halted (v : Word) : (s.setPc v).halted = s.halted := rfl
@[simp] theorem State.setPc_errCode (v : Word) : (s.setPc v).errCode = s.errCode := rfl
@[simp] theorem State.setPc_errInfo (v : Word) : (s.setPc v).errInfo = s.errInfo := rfl
@[simp] theorem State.setPc_draws (v : Word) : (s.setPc v).draws = s.draws := rfl
@[simp] theorem State.setPc_warnings (v : Word) : (s.setPc v).warnings = s.warnings := rfl

/-! `setDt`. -/

@[simp] theorem State.setDt_x (v : Byte) : (s.setDt v).x = s.x := rfl
@[simp] theorem State.setDt_i (v : Byte) : (s.setDt v).i = s.i := rfl
@[simp] theorem State.setDt_pc (v : Byte) : (s.setDt v).pc = s.pc := rfl
@[simp] theorem State.setDt_sp (v : Byte) : (s.setDt v).sp = s.sp := rfl
@[simp] theorem State.setDt_stack (v : Byte) : (s.setDt v).stack = s.stack := rfl
@[simp] theorem State.setDt_dt (v : Byte) : (s.setDt v).dt = v := rfl
@[simp] theorem State.setDt_st (v : Byte) : (s.setDt v).st = s.st := rfl
@[simp] theorem State.setDt_tone (v : Byte) : (s.setDt v).tone = s.tone := rfl
@[simp] theorem State.setDt_mem (v : Byte) : (s.setDt v).mem = s.mem := rfl
@[simp] theorem State.setDt_fb (v : Byte) : (s.setDt v).fb = s.fb := rfl
@[simp] theorem State.setDt_dirty (v : Byte) : (s.setDt v).dirty = s.dirty := rfl
@[simp] theorem State.setDt_keys (v : Byte) : (s.setDt v).keys = s.keys := rfl
@[simp] theorem State.setDt_halted (v : Byte) : (s.setDt v).halted = s.halted := rfl
@[simp] theorem State.setDt_errCode (v : Byte) : (s.setDt v).errCode = s.errCode := rfl
@[simp] theorem State.setDt_errInfo (v : Byte) : (s.setDt v).errInfo = s.errInfo := rfl
@[simp] theorem State.setDt_draws (v : Byte) : (s.setDt v).draws = s.draws := rfl
@[simp] theorem State.setDt_warnings (v : Byte) : (s.setDt v).warnings = s.warnings := rfl

/-! `setSt`. -/

@[simp] theorem State.setSt_x (v : Byte) : (s.setSt v).x = s.x := rfl
@[simp] theorem State.setSt_i (v : Byte) : (s.setSt v).i = s.i := rfl
@[simp] theorem State.setSt_pc (v : Byte) : (s.setSt v).pc = s.pc := rfl
@[simp] theorem State.setSt_sp (v : Byte) : (s.setSt v).sp = s.sp := rfl
@[simp] theorem State.setSt_stack (v : Byte) : (s.setSt v).stack = s.stack := rfl
@[simp] theorem State.setSt_dt (v : Byte) : (s.setSt v).dt = s.dt := rfl
@[simp] theorem State.setSt_st (v : Byte) : (s.setSt v).st = v := rfl
@[simp] theorem State.setSt_tone (v : Byte) : (s.setSt v).tone = s.tone := rfl
@[simp] theorem State.setSt_mem (v : Byte) : (s.setSt v).mem = s.mem := rfl
@[simp] theorem State.setSt_fb (v : Byte) : (s.setSt v).fb = s.fb := rfl
@[simp] theorem State.setSt_dirty (v : Byte) : (s.setSt v).dirty = s.dirty := rfl
@[simp] theorem State.setSt_keys (v : Byte) : (s.setSt v).keys = s.keys := rfl
@[simp] theorem State.setSt_halted (v : Byte) : (s.setSt v).halted = s.halted := rfl
@[simp] theorem State.setSt_errCode (v : Byte) : (s.setSt v).errCode = s.errCode := rfl
@[simp] theorem State.setSt_errInfo (v : Byte) : (s.setSt v).errInfo = s.errInfo := rfl
@[simp] theorem State.setSt_draws (v : Byte) : (s.setSt v).draws = s.draws := rfl
@[simp] theorem State.setSt_warnings (v : Byte) : (s.setSt v).warnings = s.warnings := rfl

/-! `advance`. -/

@[simp] theorem State.advance_x : (s.advance).x = s.x := rfl
@[simp] theorem State.advance_i : (s.advance).i = s.i := rfl
@[simp] theorem State.advance_pc : (s.advance).pc = s.pc + 2 := rfl
@[simp] theorem State.advance_sp : (s.advance).sp = s.sp := rfl
@[simp] theorem State.advance_stack : (s.advance).stack = s.stack := rfl
@[simp] theorem State.advance_dt : (s.advance).dt = s.dt := rfl
@[simp] theorem State.advance_st : (s.advance).st = s.st := rfl
@[simp] theorem State.advance_tone : (s.advance).tone = s.tone := rfl
@[simp] theorem State.advance_mem : (s.advance).mem = s.mem := rfl
@[simp] theorem State.advance_fb : (s.advance).fb = s.fb := rfl
@[simp] theorem State.advance_dirty : (s.advance).dirty = s.dirty := rfl
@[simp] theorem State.advance_keys : (s.advance).keys = s.keys := rfl
@[simp] theorem State.advance_halted : (s.advance).halted = s.halted := rfl
@[simp] theorem State.advance_errCode : (s.advance).errCode = s.errCode := rfl
@[simp] theorem State.advance_errInfo : (s.advance).errInfo = s.errInfo := rfl
@[simp] theorem State.advance_draws : (s.advance).draws = s.draws := rfl
@[simp] theorem State.advance_warnings : (s.advance).warnings = s.warnings := rfl

/-! `rewind`. -/

@[simp] theorem State.rewind_x : (s.rewind).x = s.x := rfl
@[simp] theorem State.rewind_i : (s.rewind).i = s.i := rfl
@[simp] theorem State.rewind_pc : (s.rewind).pc = s.pc - 2 := rfl
@[simp] theorem State.rewind_sp : (s.rewind).sp = s.sp := rfl
@[simp] theorem State.rewind_stack : (s.rewind).stack = s.stack := rfl
@[simp] theorem State.rewind_dt : (s.rewind).dt = s.dt := rfl
@[simp] theorem State.rewind_st : (s.rewind).st = s.st := rfl
@[simp] theorem State.rewind_tone : (s.rewind).tone = s.tone := rfl
@[simp] theorem State.rewind_mem : (s.rewind).mem = s.mem := rfl
@[simp] theorem State.rewind_fb : (s.rewind).fb = s.fb := rfl
@[simp] theorem State.rewind_dirty : (s.rewind).dirty = s.dirty := rfl
@[simp] theorem State.rewind_keys : (s.rewind).keys = s.keys := rfl
@[simp] theorem State.rewind_halted : (s.rewind).halted = s.halted := rfl
@[simp] theorem State.rewind_errCode : (s.rewind).errCode = s.errCode := rfl
@[simp] theorem State.rewind_errInfo : (s.rewind).errInfo = s.errInfo := rfl
@[simp] theorem State.rewind_draws : (s.rewind).draws = s.draws := rfl
@[simp] theorem State.rewind_warnings : (s.rewind).warnings = s.warnings := rfl

/-! `countDraw`. -/

@[simp] theorem State.countDraw_x : (s.countDraw).x = s.x := rfl
@[simp] theorem State.countDraw_i : (s.countDraw).i = s.i := rfl
@[simp] theorem State.countDraw_pc : (s.countDraw).pc = s.pc := rfl
@[simp] theorem State.countDraw_sp : (s.countDraw).sp = s.sp := rfl
@[simp] theorem State.countDraw_stack : (s.countDraw).stack = s.stack := rfl
@[simp] theorem State.countDraw_dt : (s.countDraw).dt = s.dt := rfl
@[simp] theorem State.countDraw_st : (s.countDraw).st = s.st := rfl
@[simp] theorem State.countDraw_tone : (s.countDraw).tone = s.tone := rfl
@[simp] theorem State.countDraw_mem : (s.countDraw).mem = s.mem := rfl
@[simp] theorem State.countDraw_fb : (s.countDraw).fb = s.fb := rfl
@[simp] theorem State.countDraw_dirty : (s.countDraw).dirty = s.dirty := rfl
@[simp] theorem State.countDraw_keys : (s.countDraw).keys = s.keys := rfl
@[simp] theorem State.countDraw_halted : (s.countDraw).halted = s.halted := rfl
@[simp] theorem State.countDraw_errCode : (s.countDraw).errCode = s.errCode := rfl
@[simp] theorem State.countDraw_errInfo : (s.countDraw).errInfo = s.errInfo := rfl
@[simp] theorem State.countDraw_draws : (s.countDraw).draws = s.draws + 1 := rfl
@[simp] theorem State.countDraw_warnings : (s.countDraw).warnings = s.warnings := rfl

/-! `raise`. -/

@[simp] theorem State.raise_x (e : FatalError) : (s.raise e).x = s.x := rfl
@[simp] theorem State.raise_i (e : FatalError) : (s.raise e).i = s.i := rfl
@[simp] theorem State.raise_pc (e : FatalError) : (s.raise e).pc = s.pc := rfl
@[simp] theorem State.raise_sp (e : FatalError) : (s.raise e).sp = s.sp := rfl
@[simp] theorem State.raise_stack (e : FatalError) : (s.raise e).stack = s.stack := rfl
@[simp] theorem State.raise_dt (e : FatalError) : (s.raise e).dt = s.dt := rfl
@[simp] theorem State.raise_st (e : FatalError) : (s.raise e).st = s.st := rfl
@[simp] theorem State.raise_tone (e : FatalError) : (s.raise e).tone = s.tone := rfl
@[simp] theorem State.raise_mem (e : FatalError) : (s.raise e).mem = s.mem := rfl
@[simp] theorem State.raise_fb (e : FatalError) : (s.raise e).fb = s.fb := rfl
@[simp] theorem State.raise_dirty (e : FatalError) : (s.raise e).dirty = s.dirty := rfl
@[simp] theorem State.raise_keys (e : FatalError) : (s.raise e).keys = s.keys := rfl
@[simp] theorem State.raise_halted (e : FatalError) : (s.raise e).halted = true := rfl
@[simp] theorem State.raise_errCode (e : FatalError) : (s.raise e).errCode = e.code := rfl
@[simp] theorem State.raise_errInfo (e : FatalError) : (s.raise e).errInfo = e.info := rfl
@[simp] theorem State.raise_draws (e : FatalError) : (s.raise e).draws = s.draws := rfl
@[simp] theorem State.raise_warnings (e : FatalError) : (s.raise e).warnings = s.warnings := rfl

/-! `warn`. -/

@[simp] theorem State.warn_x (w a : Word) : (s.warn w a).x = s.x := rfl
@[simp] theorem State.warn_i (w a : Word) : (s.warn w a).i = s.i := rfl
@[simp] theorem State.warn_pc (w a : Word) : (s.warn w a).pc = s.pc := rfl
@[simp] theorem State.warn_sp (w a : Word) : (s.warn w a).sp = s.sp := rfl
@[simp] theorem State.warn_stack (w a : Word) : (s.warn w a).stack = s.stack := rfl
@[simp] theorem State.warn_dt (w a : Word) : (s.warn w a).dt = s.dt := rfl
@[simp] theorem State.warn_st (w a : Word) : (s.warn w a).st = s.st := rfl
@[simp] theorem State.warn_tone (w a : Word) : (s.warn w a).tone = s.tone := rfl
@[simp] theorem State.warn_mem (w a : Word) : (s.warn w a).mem = s.mem := rfl
@[simp] theorem State.warn_fb (w a : Word) : (s.warn w a).fb = s.fb := rfl
@[simp] theorem State.warn_dirty (w a : Word) : (s.warn w a).dirty = s.dirty := rfl
@[simp] theorem State.warn_keys (w a : Word) : (s.warn w a).keys = s.keys := rfl
@[simp] theorem State.warn_halted (w a : Word) : (s.warn w a).halted = s.halted := rfl
@[simp] theorem State.warn_errCode (w a : Word) : (s.warn w a).errCode = s.errCode := rfl
@[simp] theorem State.warn_errInfo (w a : Word) : (s.warn w a).errInfo = s.errInfo := rfl
@[simp] theorem State.warn_draws (w a : Word) : (s.warn w a).draws = s.draws := rfl
@[simp] theorem State.warn_warnings (w a : Word) : (s.warn w a).warnings = ⟨w, a⟩ :: s.warnings := rfl

/-! `setPixel`. -/

@[simp] theorem State.setPixel_x (r c : Nat) (b : Bool) : (s.setPixel r c b).x = s.x := rfl
@[simp] theorem State.setPixel_i (r c : Nat) (b : Bool) : (s.setPixel r c b).i = s.i := rfl
@[simp] theorem State.setPixel_pc (r c : Nat) (b : Bool) : (s.setPixel r c b).pc = s.pc := rfl
@[simp] theorem State.setPixel_sp (r c : Nat) (b : Bool) : (s.setPixel r c b).sp = s.sp := rfl
@[simp] theorem State.setPixel_stack (r c : Nat) (b : Bool) : (s.setPixel r c b).stack = s.stack := rfl
@[simp] theorem State.setPixel_dt (r c : Nat) (b : Bool) : (s.setPixel r c b).dt = s.dt := rfl
@[simp] theorem State.setPixel_st (r c : Nat) (b : Bool) : (s.setPixel r c b).st = s.st := rfl
@[simp] theorem State.setPixel_tone (r c : Nat) (b : Bool) : (s.setPixel r c b).tone = s.tone := rfl
@[simp] theorem State.setPixel_mem (r c : Nat) (b : Bool) : (s.setPixel r c b).mem = s.mem := rfl
@[simp] theorem State.setPixel_dirty (r c : Nat) (b : Bool) : (s.setPixel r c b).dirty = s.dirty := rfl
@[simp] theorem State.setPixel_keys (r c : Nat) (b : Bool) : (s.setPixel r c b).keys = s.keys := rfl
@[simp] theorem State.setPixel_halted (r c : Nat) (b : Bool) : (s.setPixel r c b).halted = s.halted := rfl
@[simp] theorem State.setPixel_errCode (r c : Nat) (b : Bool) : (s.setPixel r c b).errCode = s.errCode := rfl
@[simp] theorem State.setPixel_errInfo (r c : Nat) (b : Bool) : (s.setPixel r c b).errInfo = s.errInfo := rfl
@[simp] theorem State.setPixel_draws (r c : Nat) (b : Bool) : (s.setPixel r c b).draws = s.draws := rfl
@[simp] theorem State.setPixel_warnings (r c : Nat) (b : Bool) : (s.setPixel r c b).warnings = s.warnings := rfl

/-! `clearFb`. -/

@[simp] theorem State.clearFb_x : (s.clearFb).x = s.x := rfl
@[simp] theorem State.clearFb_i : (s.clearFb).i = s.i := rfl
@[simp] theorem State.clearFb_pc : (s.clearFb).pc = s.pc := rfl
@[simp] theorem State.clearFb_sp : (s.clearFb).sp = s.sp := rfl
@[simp] theorem State.clearFb_stack : (s.clearFb).stack = s.stack := rfl
@[simp] theorem State.clearFb_dt : (s.clearFb).dt = s.dt := rfl
@[simp] theorem State.clearFb_st : (s.clearFb).st = s.st := rfl
@[simp] theorem State.clearFb_tone : (s.clearFb).tone = s.tone := rfl
@[simp] theorem State.clearFb_mem : (s.clearFb).mem = s.mem := rfl
@[simp] theorem State.clearFb_fb : (s.clearFb).fb = Vector.replicate 32 (Vector.replicate 64 false) := rfl
@[simp] theorem State.clearFb_dirty : (s.clearFb).dirty = s.dirty := rfl
@[simp] theorem State.clearFb_keys : (s.clearFb).keys = s.keys := rfl
@[simp] theorem State.clearFb_halted : (s.clearFb).halted = s.halted := rfl
@[simp] theorem State.clearFb_errCode : (s.clearFb).errCode = s.errCode := rfl
@[simp] theorem State.clearFb_errInfo : (s.clearFb).errInfo = s.errInfo := rfl
@[simp] theorem State.clearFb_draws : (s.clearFb).draws = s.draws := rfl
@[simp] theorem State.clearFb_warnings : (s.clearFb).warnings = s.warnings := rfl

/-! `markDirty`. -/

@[simp] theorem State.markDirty_x : (s.markDirty).x = s.x := rfl
@[simp] theorem State.markDirty_i : (s.markDirty).i = s.i := rfl
@[simp] theorem State.markDirty_pc : (s.markDirty).pc = s.pc := rfl
@[simp] theorem State.markDirty_sp : (s.markDirty).sp = s.sp := rfl
@[simp] theorem State.markDirty_stack : (s.markDirty).stack = s.stack := rfl
@[simp] theorem State.markDirty_dt : (s.markDirty).dt = s.dt := rfl
@[simp] theorem State.markDirty_st : (s.markDirty).st = s.st := rfl
@[simp] theorem State.markDirty_tone : (s.markDirty).tone = s.tone := rfl
@[simp] theorem State.markDirty_mem : (s.markDirty).mem = s.mem := rfl
@[simp] theorem State.markDirty_fb : (s.markDirty).fb = s.fb := rfl
@[simp] theorem State.markDirty_dirty : (s.markDirty).dirty = true := rfl
@[simp] theorem State.markDirty_keys : (s.markDirty).keys = s.keys := rfl
@[simp] theorem State.markDirty_halted : (s.markDirty).halted = s.halted := rfl
@[simp] theorem State.markDirty_errCode : (s.markDirty).errCode = s.errCode := rfl
@[simp] theorem State.markDirty_errInfo : (s.markDirty).errInfo = s.errInfo := rfl
@[simp] theorem State.markDirty_draws : (s.markDirty).draws = s.draws := rfl
@[simp] theorem State.markDirty_warnings : (s.markDirty).warnings = s.warnings := rfl

/-! `setResultFlag`. -/

@[simp] theorem State.setResultFlag_i (k : RegIdx) (r : Byte × Bool) : (s.setResultFlag k r).i = s.i := rfl
@[simp] theorem State.setResultFlag_pc (k : RegIdx) (r : Byte × Bool) : (s.setResultFlag k r).pc = s.pc := rfl
@[simp] theorem State.setResultFlag_sp (k : RegIdx) (r : Byte × Bool) : (s.setResultFlag k r).sp = s.sp := rfl
@[simp] theorem State.setResultFlag_stack (k : RegIdx) (r : Byte × Bool) : (s.setResultFlag k r).stack = s.stack := rfl
@[simp] theorem State.setResultFlag_dt (k : RegIdx) (r : Byte × Bool) : (s.setResultFlag k r).dt = s.dt := rfl
@[simp] theorem State.setResultFlag_st (k : RegIdx) (r : Byte × Bool) : (s.setResultFlag k r).st = s.st := rfl
@[simp] theorem State.setResultFlag_tone (k : RegIdx) (r : Byte × Bool) : (s.setResultFlag k r).tone = s.tone := rfl
@[simp] theorem State.setResultFlag_mem (k : RegIdx) (r : Byte × Bool) : (s.setResultFlag k r).mem = s.mem := rfl
@[simp] theorem State.setResultFlag_fb (k : RegIdx) (r : Byte × Bool) : (s.setResultFlag k r).fb = s.fb := rfl
@[simp] theorem State.setResultFlag_dirty (k : RegIdx) (r : Byte × Bool) : (s.setResultFlag k r).dirty = s.dirty := rfl
@[simp] theorem State.setResultFlag_keys (k : RegIdx) (r : Byte × Bool) : (s.setResultFlag k r).keys = s.keys := rfl
@[simp] theorem State.setResultFlag_halted (k : RegIdx) (r : Byte × Bool) : (s.setResultFlag k r).halted = s.halted := rfl
@[simp] theorem State.setResultFlag_errCode (k : RegIdx) (r : Byte × Bool) : (s.setResultFlag k r).errCode = s.errCode := rfl
@[simp] theorem State.setResultFlag_errInfo (k : RegIdx) (r : Byte × Bool) : (s.setResultFlag k r).errInfo = s.errInfo := rfl
@[simp] theorem State.setResultFlag_draws (k : RegIdx) (r : Byte × Bool) : (s.setResultFlag k r).draws = s.draws := rfl
@[simp] theorem State.setResultFlag_warnings (k : RegIdx) (r : Byte × Bool) : (s.setResultFlag k r).warnings = s.warnings := rfl

end Sys2Proof.Machine
end

