-- ==== Sys2Proof/Laws/Ops.lean ====
section
/-! SUPPORT. What the shared operations do: registers, bounds-checked accesses, block stores and loads, the call stack,
pixels, raising. Each lemma says once everything its operation can do. -/

namespace Sys2Proof.Machine

/-! Registers. -/

/-- A register write: the register named receives the value, every other keeps its own. -/
theorem State.reg_setReg (s : State) (k : RegIdx) (v : Byte) (j : RegIdx) :
    (s.setReg k v).reg j = if j = k then v else s.reg j := by
  unfold State.reg State.setReg
  by_cases h : j = k
  · subst h; simp
  · have hne : k.toNat ≠ j.toNat := fun e => h (BitVec.eq_of_toNat_eq e.symm)
    simp [h, hne]

theorem State.reg_setFlag (s : State) (b : Bool) (j : RegIdx) :
    (s.setFlag b).reg j = if j = 0xF then (if b then 1 else 0) else s.reg j := State.reg_setReg s _ _ j

/-- Result, then flag: the flag register ends with the flag whatever the destination (41_alu R153). -/
theorem State.reg_setResultFlag (s : State) (k : RegIdx) (r : Byte × Bool) (j : RegIdx) :
    (s.setResultFlag k r).reg j = if j = 0xF then (if r.2 then 1 else 0) else if j = k then r.1 else s.reg j := by
  rw [State.setResultFlag, State.reg_setFlag, State.reg_setReg]

/-- Two states with the same registers have the same register file. -/
theorem State.x_ext {s t : State} (h : ∀ k, s.reg k = t.reg k) : s.x = t.x := by
  apply Vector.ext
  intro k hk
  have hk' := h (BitVec.ofNat 4 k)
  simpa [State.reg, BitVec.toNat_ofNat, Nat.mod_eq_of_lt hk] using hk'

/-- A register write changes the register file only. -/
theorem State.setReg_eq (s : State) (k : RegIdx) (v : Byte) : s.setReg k v = { s with x := (s.setReg k v).x } := rfl

/-! A register depends on the register file alone. -/

@[simp] theorem State.reg_setI (s : State) (v : Word) (k : RegIdx) : (s.setI v).reg k = s.reg k := rfl
@[simp] theorem State.reg_setPc (s : State) (v : Word) (k : RegIdx) : (s.setPc v).reg k = s.reg k := rfl
@[simp] theorem State.reg_raise (s : State) (e : FatalError) (k : RegIdx) : (s.raise e).reg k = s.reg k := rfl
@[simp] theorem State.reg_setPixel (s : State) (r c : Nat) (b : Bool) (k : RegIdx) :
    (s.setPixel r c b).reg k = s.reg k := rfl
@[simp] theorem State.reg_markDirty (s : State) (k : RegIdx) : s.markDirty.reg k = s.reg k := rfl
@[simp] theorem State.reg_withMem (s : State) (m : Memory) (k : RegIdx) : ({ s with mem := m } : State).reg k = s.reg k :=
  rfl

/-! Bounds-checked accesses (20_memory R63, R64). -/

theorem inBounds_iff (a : Word) : inBounds a = true ↔ a.toNat ≤ 0xFFF := by
  simp only [inBounds, Config.memSize, decide_eq_true_eq]; omega

theorem memRead_ok {s : State} {a : Word} (h : a.toNat ≤ 0xFFF) : memRead s a = .ok (s.mem.read a.toNat) := by
  simp [memRead, (inBounds_iff a).2 h]

theorem memRead_error {s : State} {a : Word} (h : 0xFFF < a.toNat) : memRead s a = .error (.memoryBounds a) := by
  have : ¬ inBounds a = true := fun hb => by have := (inBounds_iff a).1 hb; omega
  simp [memRead, this]

theorem memWrite_ok {s : State} {a : Word} (v : Byte) (h : a.toNat ≤ 0xFFF) :
    memWrite s a v = .ok { s with mem := s.mem.write a.toNat v } := by
  simp [memWrite, (inBounds_iff a).2 h]

theorem memWrite_error {s : State} {a : Word} (v : Byte) (h : 0xFFF < a.toNat) :
    memWrite s a v = .error (.memoryBounds a) := by
  have : ¬ inBounds a = true := fun hb => by have := (inBounds_iff a).1 hb; omega
  simp [memWrite, this]

/-- The next address of an in-bounds one: 16-bit addition does not wrap there. -/
theorem toNat_succ_of_le {a : Word} (h : a.toNat ≤ 0xFFF) : (a + 1).toNat = a.toNat + 1 := by
  rw [BitVec.toNat_add]
  have : (1 : Word).toNat = 1 := rfl
  omega

/-! Block stores and loads (20_memory R65, 60_exceptions R201). -/

/-- A store of bytes that all lie in memory completes, and changes memory only, at the bytes stored. -/
theorem storeBytes_running (vs : List Byte) (a : Word) (s : State) (h : a.toNat + vs.length ≤ 0x1000) :
    storeBytes vs a s = .running { s with mem := s.mem.writeList a.toNat vs } := by
  induction vs generalizing a s with
  | nil => rfl
  | cons v vs ih =>
    simp only [List.length_cons] at h
    have ha : a.toNat ≤ 0xFFF := by omega
    have hs := toNat_succ_of_le ha
    simp only [storeBytes, memWrite_ok v ha]
    rw [ih (a + 1) _ (by omega), hs]
    rfl

/-- A store of bytes that do not all lie in memory raises at the first that does not, with the bytes before it
written. -/
theorem storeBytes_raised (vs : List Byte) (a : Word) (s : State) (ha : a.toNat ≤ 0x1000)
    (h : 0x1000 < a.toNat + vs.length) :
    storeBytes vs a s =
      .raised (.memoryBounds 0x1000) { s with mem := s.mem.writeList a.toNat (vs.take (0x1000 - a.toNat)) } := by
  induction vs generalizing a s with
  | nil => simp at h; omega
  | cons v vs ih =>
    simp only [List.length_cons] at h
    by_cases hb : a.toNat ≤ 0xFFF
    · have hs := toNat_succ_of_le hb
      obtain ⟨d, hd⟩ : ∃ d, 0x1000 - a.toNat = d + 1 := ⟨0x1000 - a.toNat - 1, by omega⟩
      have hd' : 0x1000 - (a.toNat + 1) = d := by omega
      simp only [storeBytes, memWrite_ok v hb]
      rw [ih (a + 1) _ (by omega) (by omega), hs, hd, hd']
      rfl
    · have he : a = 0x1000 := BitVec.eq_of_toNat_eq (by have : (0x1000 : Word).toNat = 0x1000 := rfl; omega)
      subst he
      simp only [storeBytes, memWrite_error v (show 0xFFF < (0x1000 : Word).toNat by decide)]
      rfl

/-- A store whose first byte lies outside memory raises at it and writes nothing. -/
theorem storeBytes_outside (v : Byte) (vs : List Byte) (a : Word) (s : State) (ha : 0xFFF < a.toNat) :
    storeBytes (v :: vs) a s = .raised (.memoryBounds a) s := by
  simp only [storeBytes, memWrite_error v ha]

/-- A register file with the bytes of a list in `x[k]`, `x[k+1]`, …. -/
def State.setRegs (s : State) : Nat → List Byte → State
  | _, [] => s
  | k, v :: vs => (s.setReg (BitVec.ofNat 4 k) v).setRegs (k + 1) vs

/-- The bytes at `a`, `a + 1`, …, `a + n - 1`. -/
def Memory.readList (m : Memory) (a n : Nat) : List Byte := (List.range n).map fun j => m.read (a + j)

theorem Memory.readList_succ (m : Memory) (a n : Nat) : m.readList a (n + 1) = m.read a :: m.readList (a + 1) n := by
  simp only [Memory.readList, List.range_succ_eq_map, List.map_cons, List.map_map, Nat.add_zero, List.cons.injEq,
    true_and]
  exact List.map_congr_left fun j _ => by simp [Nat.add_comm, Nat.add_left_comm]

theorem State.setRegs_eq (s : State) (k : Nat) (vs : List Byte) : s.setRegs k vs = { s with x := (s.setRegs k vs).x } := by
  induction vs generalizing s k with
  | nil => rfl
  | cons v vs ih => rw [State.setRegs, ih]; rfl

theorem State.reg_setRegs (s : State) (k : Nat) (vs : List Byte) (h : k + vs.length ≤ 16) (j : RegIdx) :
    (s.setRegs k vs).reg j = if k ≤ j.toNat ∧ j.toNat < k + vs.length then vs.getD (j.toNat - k) 0 else s.reg j := by
  induction vs generalizing s k with
  | nil =>
    simp [State.setRegs]
  | cons v vs ih =>
    simp only [List.length_cons] at h ⊢
    rw [State.setRegs, ih _ (k + 1) (by omega), State.reg_setReg]
    have hk : (BitVec.ofNat 4 k).toNat = k := by rw [BitVec.toNat_ofNat]; exact Nat.mod_eq_of_lt (by omega)
    have hjk : j = BitVec.ofNat 4 k ↔ j.toNat = k :=
      ⟨fun e => by rw [e, hk], fun e => BitVec.eq_of_toNat_eq (by rw [hk, e])⟩
    by_cases hj : j.toNat = k
    · have h1 : ¬(k + 1 ≤ j.toNat ∧ j.toNat < k + 1 + vs.length) := by omega
      have h2 : k ≤ j.toNat ∧ j.toNat < k + (vs.length + 1) := by omega
      rw [if_neg h1, if_pos (hjk.2 hj), if_pos h2, hj]
      simp
    · have hne : ¬ j = BitVec.ofNat 4 k := fun e => hj (hjk.1 e)
      by_cases hr : k + 1 ≤ j.toNat ∧ j.toNat < k + 1 + vs.length
      · have h2 : k ≤ j.toNat ∧ j.toNat < k + (vs.length + 1) := by omega
        obtain ⟨d, hd⟩ : ∃ d, j.toNat - k = d + 1 := ⟨j.toNat - k - 1, by omega⟩
        have hd' : j.toNat - (k + 1) = d := by omega
        rw [if_pos hr, if_pos h2, hd, hd', List.getD_cons_succ]
      · have h2 : ¬(k ≤ j.toNat ∧ j.toNat < k + (vs.length + 1)) := by omega
        rw [if_neg hr, if_neg hne, if_neg h2]

/-- A load of bytes that all lie in memory completes, and changes registers only. -/
theorem loadBytes_running (n k : Nat) (a : Word) (s : State) (h : a.toNat + n ≤ 0x1000) :
    loadBytes n k a s = .running (s.setRegs k (s.mem.readList a.toNat n)) := by
  induction n generalizing k a s with
  | zero => rfl
  | succ n ih =>
    have ha : a.toNat ≤ 0xFFF := by omega
    have hs := toNat_succ_of_le ha
    simp only [loadBytes, memRead_ok ha]
    rw [ih (k + 1) (a + 1) _ (by omega), hs, Memory.readList_succ]
    rfl

/-- A load of bytes that do not all lie in memory raises at the first that does not, with the registers before it
loaded. -/
theorem loadBytes_raised (n k : Nat) (a : Word) (s : State) (ha : a.toNat ≤ 0x1000) (h : 0x1000 < a.toNat + n) :
    loadBytes n k a s =
      .raised (.memoryBounds 0x1000) (s.setRegs k (s.mem.readList a.toNat (0x1000 - a.toNat))) := by
  induction n generalizing k a s with
  | zero => omega
  | succ n ih =>
    by_cases hb : a.toNat ≤ 0xFFF
    · have hs := toNat_succ_of_le hb
      obtain ⟨d, hd⟩ : ∃ d, 0x1000 - a.toNat = d + 1 := ⟨0x1000 - a.toNat - 1, by omega⟩
      have hd' : 0x1000 - (a.toNat + 1) = d := by omega
      simp only [loadBytes, memRead_ok hb]
      rw [ih (k + 1) (a + 1) _ (by omega) (by omega), hs, hd, hd', Memory.readList_succ]
      rfl
    · have he : a = 0x1000 := BitVec.eq_of_toNat_eq (by have : (0x1000 : Word).toNat = 0x1000 := rfl; omega)
      subst he
      simp only [loadBytes, memRead_error (show 0xFFF < (0x1000 : Word).toNat by decide)]
      rfl

/-- A load whose first byte lies outside memory raises at it and loads nothing. -/
theorem loadBytes_outside (n k : Nat) (a : Word) (s : State) (ha : 0xFFF < a.toNat) :
    loadBytes (n + 1) k a s = .raised (.memoryBounds a) s := by
  simp only [loadBytes, memRead_error ha]

/-! The call stack (10_state R24, R25). -/

/-- A push where the entry exists: the entry at `SP` is written, every other keeps its value, `SP` goes up. -/
theorem State.push_eq {s : State} (v : Word) (h : s.sp.toNat < 16) :
    s.push v = some { s with stack := s.stack.set s.sp.toNat v h, sp := s.sp + 1 } := by
  simp [State.push, h]

theorem State.push_none {s : State} (v : Word) (h : 16 ≤ s.sp.toNat) : s.push v = none := by
  simp [State.push, Nat.not_lt.2 h]

theorem State.sp_pred {s : State} (h0 : s.sp ≠ 0) : (s.sp - 1).toNat = s.sp.toNat - 1 := by
  have hpos : s.sp.toNat ≠ 0 := fun e => h0 (BitVec.eq_of_toNat_eq e)
  have hlt := s.sp.isLt
  rw [BitVec.toNat_sub]
  have : (1 : BitVec 5).toNat = 1 := rfl
  omega

/-- A pop where the entry exists: `SP` goes down, the entry keeps its value. -/
theorem State.pop_eq {s : State} (h : (s.sp - 1).toNat < 16) :
    s.pop = some (s.stack[(s.sp - 1).toNat]'h, { s with sp := s.sp - 1 }) := by
  unfold State.pop
  rw [dif_pos h]

theorem State.pop_none {s : State} (h : 16 ≤ (s.sp - 1).toNat) : s.pop = none := by
  unfold State.pop
  rw [dif_neg (Nat.not_lt.2 h)]

/-! Pixels (10_state R30, 43_display R181). -/

/-- Reading a pixel after a pixel write: coordinates are modulo 32 and 64. -/
theorem State.pixel_setPixel (s : State) (r c : Nat) (b : Bool) (r' c' : Nat) :
    (s.setPixel r c b).pixel r' c' = if r % 32 = r' % 32 ∧ c % 64 = c' % 64 then b else s.pixel r' c' := by
  unfold State.setPixel State.pixel
  by_cases hr : r % 32 = r' % 32
  · by_cases hc : c % 64 = c' % 64
    · simp [hr, hc]
    · simp [hr, hc]
  · simp [hr]

@[simp] theorem State.pixel_setReg (s : State) (k : RegIdx) (v : Byte) (r c : Nat) :
    (s.setReg k v).pixel r c = s.pixel r c := rfl
@[simp] theorem State.pixel_setFlag (s : State) (b : Bool) (r c : Nat) : (s.setFlag b).pixel r c = s.pixel r c := rfl
@[simp] theorem State.pixel_markDirty (s : State) (r c : Nat) : s.markDirty.pixel r c = s.pixel r c := rfl

theorem State.pixel_clearFb (s : State) (r c : Nat) : s.clearFb.pixel r c = false := by
  simp [State.clearFb, State.pixel]

/-- Pixels are read modulo 32 and 64. -/
theorem State.pixel_mod (s : State) (r c : Nat) : s.pixel (r % 32) (c % 64) = s.pixel r c := by
  simp [State.pixel]

/-- Two framebuffers with the same pixels are equal. -/
theorem State.fb_ext {s t : State} (h : ∀ r c, r < 32 → c < 64 → s.pixel r c = t.pixel r c) : s.fb = t.fb := by
  apply Vector.ext
  intro r hr
  apply Vector.ext
  intro c hc
  have := h r c hr hc
  simpa [State.pixel, Nat.mod_eq_of_lt hr, Nat.mod_eq_of_lt hc] using this

/-! The end of the pseudocode (60_exceptions R201). -/

@[simp] theorem Progress.finish_running (s : State) : (Progress.running s).finish = .next s := rfl
@[simp] theorem Progress.finish_raised (e : FatalError) (s : State) : (Progress.raised e s).finish = .next (s.raise e) :=
  rfl
@[simp] theorem Progress.andThen_running (s : State) (f : State → State) :
    (Progress.running s).andThen f = .running (f s) := rfl
@[simp] theorem Progress.andThen_raised (e : FatalError) (s : State) (f : State → State) :
    (Progress.raised e s).andThen f = .raised e s := rfl

/-- The pseudocode always ends in a next state: with the effects of every line, or with the fatal latch set. -/
theorem Progress.finish_cases (p : Progress) :
    (∃ s, p = .running s ∧ p.finish = .next s) ∨ (∃ e s, p = .raised e s ∧ p.finish = .next (s.raise e)) := by
  cases p with
  | running s => exact .inl ⟨s, rfl, rfl⟩
  | raised e s => exact .inr ⟨e, s, rfl, rfl⟩

end Sys2Proof.Machine
end

