-- ==== Sys2Proof/Laws/Operands.lean ====
section
/-! SUPPORT. What the operand forms and the flag computations come to, as integers. -/

namespace Sys2Proof.Machine

/-! Operands. -/

theorem toNat_addressOperand (nnn : Addr12) : (addressOperand nnn).toNat = nnn.toNat := by
  have := nnn.isLt
  simp only [addressOperand, BitVec.toNat_setWidth]; omega

theorem State.toNat_regWord (s : State) (x : RegIdx) : (s.regWord x).toNat = (s.reg x).toNat := by
  have := (s.reg x).isLt
  simp only [State.regWord, BitVec.toNat_setWidth]; omega

/-- The shift operand of this hardware is `x[X]`. -/
@[simp] theorem State.shiftOperand_eq (s : State) (x y : RegIdx) : s.shiftOperand x y = s.reg x := rfl

theorem State.toNat_glyphAddress (s : State) (x : RegIdx) :
    (s.glyphAddress x).toNat = 0x50 + (s.reg x).toNat * 5 := by
  have := (s.reg x).isLt
  simp only [State.glyphAddress, BitVec.toNat_add, BitVec.toNat_mul, BitVec.toNat_ofNat, State.toNat_regWord,
    Config.glyphBase, Config.glyphStride]
  omega

theorem State.keyOperand_eq (s : State) (x : RegIdx) : s.keyOperand x = (s.reg x).toNat % 16 := by
  simp [State.keyOperand]

theorem toNat_blockLength (x : RegIdx) : (blockLength x).toNat = x.toNat + 1 := by
  have := x.isLt
  have h1 : (1 : Word).toNat = 1 := rfl
  simp only [blockLength, BitVec.toNat_add, BitVec.toNat_setWidth, h1]; omega

@[simp] theorem length_decimalDigits (v : Byte) : (decimalDigits v).length = 3 := rfl

/-- The three digits are the hundreds, the tens and the units. -/
theorem toNat_decimalDigits (v : Byte) :
    (decimalDigits v).map BitVec.toNat = [v.toNat / 100, v.toNat / 10 % 10, v.toNat % 10] := by
  simp [decimalDigits]

theorem State.length_regsUpTo (s : State) (x : RegIdx) : (s.regsUpTo x).length = x.toNat + 1 := by
  have := x.isLt
  simp only [State.regsUpTo, List.length_take, Vector.length_toList]; omega

/-- Byte `k` of a block transfer is `x[k]`. -/
theorem State.getD_regsUpTo (s : State) (x k : RegIdx) (h : k.toNat ≤ x.toNat) :
    (s.regsUpTo x).getD k.toNat 0 = s.reg k := by
  have hk := k.isLt
  have hlen : k.toNat < (s.regsUpTo x).length := by rw [State.length_regsUpTo]; omega
  rw [List.getD_eq_getElem _ _ hlen]
  simp [State.regsUpTo, State.reg]

/-- What the scan of the latch finds: no key of the range, or the lowest pressed one. -/
theorem State.pressedFrom_cases (s : State) (n k : Nat) :
    (s.pressedFrom n k = none ∧ ∀ j, k ≤ j → j < k + n → s.key j = false) ∨
    (∃ j, s.pressedFrom n k = some j ∧ k ≤ j ∧ j < k + n ∧ s.key j = true ∧ ∀ i, k ≤ i → i < j → s.key i = false) := by
  induction n generalizing k with
  | zero => exact .inl ⟨rfl, fun j h1 h2 => by omega⟩
  | succ n ih =>
    by_cases hk : s.key k = true
    · exact .inr ⟨k, by simp [State.pressedFrom, hk], le_refl k, by omega, hk, fun i h1 h2 => by omega⟩
    · have hk' : s.key k = false := by simpa using hk
      have hrec : s.pressedFrom (n + 1) k = s.pressedFrom n (k + 1) := by simp [State.pressedFrom, hk']
      rcases ih (k + 1) with ⟨hn, ha⟩ | ⟨j, hj, h1, h2, h3, h4⟩
      · refine .inl ⟨by rw [hrec, hn], fun j h1 h2 => ?_⟩
        by_cases hjk : j = k
        · rw [hjk, hk']
        · exact ha j (by omega) (by omega)
      · refine .inr ⟨j, by rw [hrec, hj], by omega, by omega, h3, fun i h5 h6 => ?_⟩
        by_cases hik : i = k
        · rw [hik, hk']
        · exact h4 i (by omega) h6

/-! Flags (41_alu R146 to R150). -/

/-- Add: the sum modulo 256, and the carry when the integer sum exceeds 255. -/
theorem addCarry_spec (a b : Byte) :
    (addCarry a b).1.toNat = (a.toNat + b.toNat) % 256 ∧ ((addCarry a b).2 = true ↔ 255 < a.toNat + b.toNat) := by
  have ha := a.isLt
  have hb := b.isLt
  constructor
  · simp only [addCarry, BitVec.toNat_setWidth, BitVec.toNat_add]; omega
  · simp only [addCarry, ← BitVec.testBit_toNat, BitVec.toNat_add, BitVec.toNat_setWidth, Nat.testBit_eq_decide_div_mod_eq,
      decide_eq_true_eq]
    omega

/-- Subtract: the difference modulo 256, and no borrow when the minuend is not smaller. -/
theorem subNoBorrow_spec (a b : Byte) :
    (subNoBorrow a b).1.toNat = (a.toNat + 256 - b.toNat) % 256 ∧
      ((subNoBorrow a b).2 = true ↔ b.toNat ≤ a.toNat) := by
  have ha := a.isLt
  have hb := b.isLt
  constructor
  · simp only [subNoBorrow, BitVec.toNat_sub]; omega
  · simp [subNoBorrow]

/-- Shift right: half the value, and whether it was odd. -/
theorem shiftRightOne_spec (a : Byte) :
    (shiftRightOne a).1.toNat = a.toNat / 2 ∧ ((shiftRightOne a).2 = true ↔ a.toNat % 2 = 1) := by
  constructor
  · simp only [shiftRightOne, BitVec.toNat_ushiftRight, Nat.shiftRight_eq_div_pow, Nat.pow_one]
  · simp only [shiftRightOne, ← BitVec.testBit_toNat, Nat.testBit_eq_decide_div_mod_eq, decide_eq_true_eq, Nat.pow_zero,
      Nat.div_one]

/-- Shift left: twice the value modulo 256, and whether it was 128 or more. -/
theorem shiftLeftOne_spec (a : Byte) :
    (shiftLeftOne a).1.toNat = 2 * a.toNat % 256 ∧ ((shiftLeftOne a).2 = true ↔ 128 ≤ a.toNat) := by
  have ha := a.isLt
  constructor
  · simp only [shiftLeftOne, BitVec.toNat_shiftLeft, Nat.shiftLeft_eq]; omega
  · simp only [shiftLeftOne, ← BitVec.testBit_toNat, Nat.testBit_eq_decide_div_mod_eq, decide_eq_true_eq]
    omega

end Sys2Proof.Machine
end

