-- ==== Sys2Proof/Laws/Display.lean ====
section
/-! SUPPORT. What drawing does (43_display R181): one pixel, one row of eight bits, a run of rows. The two closed forms,
which pixels a run of rows flips and when it sets the flag register, rest on no pixel being targeted twice. -/

namespace Sys2Proof.Machine

/-- Nothing but general registers and pixels differs. -/
def DrawFrame (s t : State) : Prop := t = { s with x := t.x, fb := t.fb }

theorem DrawFrame.refl (s : State) : DrawFrame s s := rfl

theorem DrawFrame.trans {s t u : State} (h1 : DrawFrame s t) (h2 : DrawFrame t u) : DrawFrame s u := by
  cases s; cases t; cases u
  simp only [DrawFrame, State.mk.injEq] at *
  simp_all

theorem DrawFrame.mem {s t : State} (h : DrawFrame s t) : t.mem = s.mem := by rw [h]

theorem DrawFrame.i {s t : State} (h : DrawFrame s t) : t.i = s.i := by rw [h]

/-! One pixel. -/

theorem State.drawPixel_frame (s : State) (r c : Nat) (bit : Bool) : DrawFrame s (s.drawPixel r c bit) := by
  unfold State.drawPixel
  by_cases h : (bit && s.pixel r c) = true
  · simp only [h, if_true]; rfl
  · simp only [h]; rfl

theorem State.pixel_drawPixel (s : State) (r c : Nat) (bit : Bool) (r' c' : Nat) :
    (s.drawPixel r c bit).pixel r' c' =
      (s.pixel r' c' ^^ (bit && r % 32 == r' % 32 && c % 64 == c' % 64)) := by
  have hpix : ∀ p : Bool, ((if p then s.setFlag true else s).setPixel r c (s.pixel r c ^^ bit)).pixel r' c' =
      if r % 32 = r' % 32 ∧ c % 64 = c' % 64 then (s.pixel r c ^^ bit) else s.pixel r' c' := by
    intro p
    cases p <;> simp [State.pixel_setPixel]
  unfold State.drawPixel
  rw [hpix]
  by_cases hr : r % 32 = r' % 32
  · by_cases hc : c % 64 = c' % 64
    · have hsame : s.pixel r c = s.pixel r' c' := by rw [← s.pixel_mod r c, ← s.pixel_mod r' c', hr, hc]
      simp [hr, hc, hsame]
    · have hc' : (c % 64 == c' % 64) = false := by simpa using hc
      simp [hc, hc']
  · have hr' : (r % 32 == r' % 32) = false := by simpa using hr
    simp [hr, hr']

theorem State.reg_drawPixel (s : State) (r c : Nat) (bit : Bool) (k : RegIdx) :
    (s.drawPixel r c bit).reg k = if k = 0xF ∧ (bit && s.pixel r c) = true then 1 else s.reg k := by
  unfold State.drawPixel
  by_cases hp : (bit && s.pixel r c) = true
  · simp only [hp, if_true, State.reg_setPixel, State.reg_setFlag, and_true]
  · simp only [hp, if_false, State.reg_setPixel, and_false, Bool.false_eq_true]

/-! A row of bits. -/

/-- Some bit among `bit`, …, `bit + n - 1` of the byte is 1 and lands on the pixel in row `r'`, column `c'`. -/
def bitsHit (b : Byte) (r vx n bit r' c' : Nat) : Bool :=
  (List.range' bit n).any fun j => b.getLsbD (7 - j) && r % 32 == r' % 32 && (vx + j) % 64 == c' % 64

theorem bitsHit_succ (b : Byte) (r vx n bit r' c' : Nat) :
    bitsHit b r vx (n + 1) bit r' c' =
      ((b.getLsbD (7 - bit) && r % 32 == r' % 32 && (vx + bit) % 64 == c' % 64) ||
        bitsHit b r vx n (bit + 1) r' c') := by
  simp [bitsHit, List.range'_succ]

theorem bitsHit_iff (b : Byte) (r vx n bit r' c' : Nat) :
    bitsHit b r vx n bit r' c' = true ↔
      ∃ j, bit ≤ j ∧ j < bit + n ∧ b.getLsbD (7 - j) = true ∧ r % 32 = r' % 32 ∧ (vx + j) % 64 = c' % 64 := by
  simp only [bitsHit, List.any_eq_true, List.mem_range'_1, Bool.and_eq_true, beq_iff_eq]
  exact ⟨fun ⟨j, ⟨h1, h2⟩, ⟨h3, h4⟩, h5⟩ => ⟨j, h1, h2, h3, h4, h5⟩,
    fun ⟨j, h1, h2, h3, h4, h5⟩ => ⟨j, ⟨h1, h2⟩, ⟨h3, h4⟩, h5⟩⟩

/-- The column of one bit is the column of no later bit of the same row. -/
theorem bitsHit_after (b : Byte) (r vx n bit c' : Nat) (hn : n + 1 ≤ 64) (hc : (vx + bit) % 64 = c' % 64) (r' : Nat) :
    bitsHit b r vx n (bit + 1) r' c' = false := by
  rw [Bool.eq_false_iff]
  intro h
  obtain ⟨j, h1, h2, -, -, h3⟩ := (bitsHit_iff ..).1 h
  omega

theorem State.drawBits_frame (b : Byte) (r vx n bit : Nat) (s : State) : DrawFrame s (State.drawBits b r vx n bit s) := by
  induction n generalizing bit s with
  | zero => exact DrawFrame.refl s
  | succ n ih => exact (s.drawPixel_frame r (vx + bit) (b.getLsbD (7 - bit))).trans (ih (bit + 1) _)

/-- A row of bits flips the pixels its 1 bits land on. -/
theorem State.pixel_drawBits (b : Byte) (r vx n bit : Nat) (hn : n ≤ 64) (s : State) (r' c' : Nat) :
    (State.drawBits b r vx n bit s).pixel r' c' = (s.pixel r' c' ^^ bitsHit b r vx n bit r' c') := by
  induction n generalizing bit s with
  | zero => simp [State.drawBits, bitsHit]
  | succ n ih =>
    rw [State.drawBits, ih (bit + 1) (by omega), State.pixel_drawPixel, bitsHit_succ]
    by_cases hc : (vx + bit) % 64 = c' % 64
    · rw [bitsHit_after b r vx n bit c' hn hc r']
      simp
    · have : ((vx + bit) % 64 == c' % 64) = false := by simpa using hc
      simp [this]

/-- A row of bits sets the flag register when a 1 bit lands on a lit pixel, and leaves every other register alone. -/
theorem State.reg_drawBits (b : Byte) (r vx n bit : Nat) (hn : n ≤ 64) (s : State) (k : RegIdx) :
    ((State.drawBits b r vx n bit s).reg k = 1 ∧ k = 0xF ∧
        ∃ j, bit ≤ j ∧ j < bit + n ∧ b.getLsbD (7 - j) = true ∧ s.pixel r (vx + j) = true) ∨
      ((State.drawBits b r vx n bit s).reg k = s.reg k ∧
        (k = 0xF → ∀ j, bit ≤ j → j < bit + n → b.getLsbD (7 - j) = true → s.pixel r (vx + j) = false)) := by
  induction n generalizing bit s with
  | zero => exact .inr ⟨rfl, fun _ j h1 h2 => by omega⟩
  | succ n ih =>
    rw [State.drawBits]
    -- the first pixel does not change the pixels of the later bits
    have hlater : ∀ j, bit + 1 ≤ j → j < bit + 1 + n →
        (s.drawPixel r (vx + bit) (b.getLsbD (7 - bit))).pixel r (vx + j) = s.pixel r (vx + j) := by
      intro j h1 h2
      have hne : ((vx + bit) % 64 == (vx + j) % 64) = false := by simp only [beq_eq_false_iff_ne]; omega
      simp [State.pixel_drawPixel, hne]
    rcases ih (bit + 1) (by omega) (s.drawPixel r (vx + bit) (b.getLsbD (7 - bit))) with
      ⟨h, hk, j, h1, h2, h3, h4⟩ | ⟨h, hno⟩
    · exact .inl ⟨h, hk, j, by omega, by omega, h3, by rw [← hlater j h1 h2]; exact h4⟩
    · rw [State.reg_drawPixel] at h
      by_cases hfirst : k = 0xF ∧ (b.getLsbD (7 - bit) && s.pixel r (vx + bit)) = true
      · rw [if_pos hfirst] at h
        have hb := Bool.and_eq_true_iff.1 hfirst.2
        exact .inl ⟨h, hfirst.1, bit, le_refl bit, by omega, hb.1, hb.2⟩
      · rw [if_neg hfirst] at h
        refine .inr ⟨h, fun hk j h1 h2 h3 => ?_⟩
        by_cases hj : j = bit
        · subst hj
          have : ¬(b.getLsbD (7 - j) && s.pixel r (vx + j)) = true := fun e => hfirst ⟨hk, e⟩
          simpa [h3] using this
        · rw [← hlater j (by omega) (by omega)]
          exact hno hk j (by omega) (by omega) h3

/-! A run of rows. -/

/-- Some 1 bit of some row among `row`, …, `row + n - 1` of the sprite at `I` lands on the pixel. -/
def State.rowsHit (s : State) (vx vy n row r' c' : Nat) : Bool :=
  (List.range' row n).any fun k => bitsHit (s.mem.read (s.i.toNat + k)) (vy + k) vx 8 0 r' c'

theorem State.rowsHit_succ (s : State) (vx vy n row r' c' : Nat) :
    s.rowsHit vx vy (n + 1) row r' c' =
      (bitsHit (s.mem.read (s.i.toNat + row)) (vy + row) vx 8 0 r' c' || s.rowsHit vx vy n (row + 1) r' c') := by
  simp [State.rowsHit, List.range'_succ]

/-- The address of a row that lies in memory: 16-bit addition does not wrap there. -/
theorem toNat_rowAddress {i : Word} {row : Nat} (h : i.toNat + row < 0x10000) :
    (i + BitVec.ofNat 16 row).toNat = i.toNat + row := by
  rw [BitVec.toNat_add, BitVec.toNat_ofNat]
  omega

/-- The state after the rows, whether or not a later row raises: rows are drawn while their byte lies in memory. -/
def State.afterRows (s : State) (vx vy : Nat) : (n row : Nat) → State
  | 0, _ => s
  | n + 1, row => State.afterRows (State.drawBits (s.mem.read (s.i.toNat + row)) (vy + row) vx 8 0 s) vx vy n (row + 1)

/-- A draw whose rows all lie in memory completes. -/
theorem drawRows_running (vx vy n row : Nat) (s : State) (h : n = 0 ∨ s.i.toNat + row + n ≤ 0x1000) :
    drawRows vx vy n row s = .running (s.afterRows vx vy n row) := by
  induction n generalizing row s with
  | zero => rfl
  | succ n ih =>
    have ha : (s.i + BitVec.ofNat 16 row).toNat = s.i.toNat + row := toNat_rowAddress (by omega)
    simp only [drawRows, memRead_ok (show (s.i + BitVec.ofNat 16 row).toNat ≤ 0xFFF by omega), ha]
    rw [ih]
    · rfl
    · right
      rw [(State.drawBits_frame ..).i]; omega

/-- A draw with a row outside memory raises at the first such row, with the rows before it drawn. -/
theorem drawRows_raised (vx vy n row : Nat) (s : State) (h1 : s.i.toNat + row ≤ 0x1000)
    (h2 : 0x1000 < s.i.toNat + row + n) :
    drawRows vx vy n row s =
      .raised (.memoryBounds 0x1000) (s.afterRows vx vy (0x1000 - (s.i.toNat + row)) row) := by
  induction n generalizing row s with
  | zero => omega
  | succ n ih =>
    have ha : (s.i + BitVec.ofNat 16 row).toNat = s.i.toNat + row := toNat_rowAddress (by omega)
    by_cases hb : s.i.toNat + row ≤ 0xFFF
    · have hi := (State.drawBits_frame (s.mem.read (s.i.toNat + row)) (vy + row) vx 8 0 s).i
      obtain ⟨d, hd⟩ : ∃ d, 0x1000 - (s.i.toNat + row) = d + 1 := ⟨0x1000 - (s.i.toNat + row) - 1, by omega⟩
      have hd' : 0x1000 - (s.i.toNat + (row + 1)) = d := by omega
      simp only [drawRows, memRead_ok (show (s.i + BitVec.ofNat 16 row).toNat ≤ 0xFFF by omega), ha]
      rw [ih (row + 1) _ (by rw [hi]; omega) (by rw [hi]; omega), hi, hd, hd']
      rfl
    · have he : s.i + BitVec.ofNat 16 row = 0x1000 :=
        BitVec.eq_of_toNat_eq (by have : (0x1000 : Word).toNat = 0x1000 := rfl; omega)
      simp only [drawRows, he, memRead_error (show 0xFFF < (0x1000 : Word).toNat by decide)]
      have hz : 0x1000 - (s.i.toNat + row) = 0 := by omega
      rw [hz]
      rfl

/-- A draw of at least one row with `I` outside memory raises at once. -/
theorem drawRows_outside (vx vy n : Nat) (s : State) (h : 0xFFF < s.i.toNat) :
    drawRows vx vy (n + 1) 0 s = .raised (.memoryBounds s.i) s := by
  have h0 : s.i + BitVec.ofNat 16 0 = s.i := by simp
  simp only [drawRows, h0, memRead_error h]

theorem State.afterRows_frame (s : State) (vx vy n row : Nat) : DrawFrame s (s.afterRows vx vy n row) := by
  induction n generalizing row s with
  | zero => exact DrawFrame.refl s
  | succ n ih => exact (State.drawBits_frame ..).trans (ih _ (row + 1))

/-- Drawing a row of bits changes neither memory nor `I`, so the later rows are read as before. -/
theorem State.rowsHit_drawBits (s : State) (b : Byte) (r v m bit vx vy n row r' c' : Nat) :
    (State.drawBits b r v m bit s).rowsHit vx vy n row r' c' = s.rowsHit vx vy n row r' c' := by
  have hf := State.drawBits_frame b r v m bit s
  simp only [State.rowsHit, hf.mem, hf.i]

/-- The pixels of one row are the pixels of no later row. -/
theorem State.rowsHit_after (s : State) (vx vy n row r' c' : Nat) (hn : n + 1 ≤ 32) (hr : (vy + row) % 32 = r' % 32) :
    s.rowsHit vx vy n (row + 1) r' c' = false := by
  rw [Bool.eq_false_iff]
  intro h
  simp only [State.rowsHit, List.any_eq_true, List.mem_range'_1] at h
  obtain ⟨k, ⟨h1, h2⟩, h3⟩ := h
  obtain ⟨j, -, -, -, h4, -⟩ := (bitsHit_iff ..).1 h3
  omega

/-- A run of rows flips the pixels its 1 bits land on. -/
theorem State.pixel_afterRows (s : State) (vx vy n row : Nat) (hn : n ≤ 32) (r' c' : Nat) :
    (s.afterRows vx vy n row).pixel r' c' = (s.pixel r' c' ^^ s.rowsHit vx vy n row r' c') := by
  induction n generalizing row s with
  | zero => simp [State.afterRows, State.rowsHit]
  | succ n ih =>
    rw [State.afterRows, ih _ (row + 1) (by omega), State.pixel_drawBits _ _ _ _ _ (by omega), State.rowsHit_drawBits,
      State.rowsHit_succ]
    by_cases hr : (vy + row) % 32 = r' % 32
    · rw [s.rowsHit_after vx vy n row r' c' hn hr]
      simp
    · have hb : bitsHit (s.mem.read (s.i.toNat + row)) (vy + row) vx 8 0 r' c' = false := by
        rw [Bool.eq_false_iff]
        intro h
        obtain ⟨j, -, -, -, h4, -⟩ := (bitsHit_iff ..).1 h
        exact hr h4
      simp [hb]

/-- A run of rows sets the flag register when a 1 bit of one lands on a lit pixel, and leaves every other register
alone. -/
theorem State.reg_afterRows (s : State) (vx vy n row : Nat) (hn : n ≤ 32) (k : RegIdx) :
    ((s.afterRows vx vy n row).reg k = 1 ∧ k = 0xF ∧
        ∃ q, row ≤ q ∧ q < row + n ∧ ∃ j < 8, (s.mem.read (s.i.toNat + q)).getLsbD (7 - j) = true ∧
          s.pixel (vy + q) (vx + j) = true) ∨
      ((s.afterRows vx vy n row).reg k = s.reg k ∧
        (k = 0xF → ∀ q, row ≤ q → q < row + n → ∀ j < 8,
          (s.mem.read (s.i.toNat + q)).getLsbD (7 - j) = true → s.pixel (vy + q) (vx + j) = false)) := by
  induction n generalizing row s with
  | zero => exact .inr ⟨rfl, fun _ q h1 h2 => by omega⟩
  | succ n ih =>
    rw [State.afterRows]
    have hm := (State.drawBits_frame (s.mem.read (s.i.toNat + row)) (vy + row) vx 8 0 s).mem
    have hi := (State.drawBits_frame (s.mem.read (s.i.toNat + row)) (vy + row) vx 8 0 s).i
    -- the first row does not change the pixels of the later rows
    have hlater : ∀ q, row + 1 ≤ q → q < row + 1 + n → ∀ c,
        (State.drawBits (s.mem.read (s.i.toNat + row)) (vy + row) vx 8 0 s).pixel (vy + q) c = s.pixel (vy + q) c := by
      intro q h1 h2 c
      rw [State.pixel_drawBits _ _ _ _ _ (by omega)]
      have hb : bitsHit (s.mem.read (s.i.toNat + row)) (vy + row) vx 8 0 (vy + q) c = false := by
        rw [Bool.eq_false_iff]
        intro h
        obtain ⟨j, -, -, -, h4, -⟩ := (bitsHit_iff ..).1 h
        omega
      simp [hb]
    rcases ih (State.drawBits (s.mem.read (s.i.toNat + row)) (vy + row) vx 8 0 s) (row + 1) (by omega) with
      ⟨h, hk, q, h1, h2, j, h3, h4, h5⟩ | ⟨h, hno⟩
    · rw [hm, hi] at h4
      rw [hlater q h1 h2] at h5
      exact .inl ⟨h, hk, q, by omega, by omega, j, h3, h4, h5⟩
    · rcases State.reg_drawBits (s.mem.read (s.i.toNat + row)) (vy + row) vx 8 0 (by omega) s k with
        ⟨g, hk, j, g1, g2, g3, g4⟩ | ⟨g, gno⟩
      · exact .inl ⟨by rw [h, g], hk, row, le_refl row, by omega, j, by omega, g3, g4⟩
      · refine .inr ⟨by rw [h, g], fun hk q h1 h2 j h3 h4 => ?_⟩
        by_cases hq : q = row
        · subst hq
          exact gno hk j (Nat.zero_le j) (by omega) h4
        · rw [← hlater q (by omega) (by omega)]
          exact hno hk q (by omega) (by omega) j h3 (by rw [hm, hi]; exact h4)

end Sys2Proof.Machine
end

