-- ==== Sys2Proof/Laws/PerInstr.lean ====
section
/-! SUPPORT. Per-instruction family: the word of every instruction carries the fixed digits of its row of the opcode map
(30_encoding R94), under the row's mask. -/

namespace Sys2Proof.Laws

/-- The mask and the fixed digits of an instruction's row (30_encoding R94). -/
def rowOf : Instr → Word × Word
  | .cls => (0xFFFF, 0x00E0)
  | .ret => (0xFFFF, 0x00EE)
  | .jp _ => (0xF000, 0x1000)
  | .call _ => (0xF000, 0x2000)
  | .seImm _ _ => (0xF000, 0x3000)
  | .sneImm _ _ => (0xF000, 0x4000)
  | .seReg _ _ => (0xF00F, 0x5000)
  | .ldImm _ _ => (0xF000, 0x6000)
  | .addImm _ _ => (0xF000, 0x7000)
  | .ldReg _ _ => (0xF00F, 0x8000)
  | .or _ _ => (0xF00F, 0x8001)
  | .and _ _ => (0xF00F, 0x8002)
  | .xor _ _ => (0xF00F, 0x8003)
  | .addReg _ _ => (0xF00F, 0x8004)
  | .sub _ _ => (0xF00F, 0x8005)
  | .shr _ _ => (0xF00F, 0x8006)
  | .subn _ _ => (0xF00F, 0x8007)
  | .shl _ _ => (0xF00F, 0x800E)
  | .sneReg _ _ => (0xF00F, 0x9000)
  | .ldI _ => (0xF000, 0xA000)
  | .jpVx _ _ => (0xF000, 0xB000)
  | .rnd _ _ => (0xF000, 0xC000)
  | .drw _ _ _ => (0xF000, 0xD000)
  | .skp _ => (0xF0FF, 0xE09E)
  | .sknp _ => (0xF0FF, 0xE0A1)
  | .ldVxDt _ => (0xF0FF, 0xF007)
  | .ldVxK _ => (0xF0FF, 0xF00A)
  | .ldDtVx _ => (0xF0FF, 0xF015)
  | .ldStVx _ => (0xF0FF, 0xF018)
  | .addI _ => (0xF0FF, 0xF01E)
  | .ldF _ => (0xF0FF, 0xF029)
  | .ldB _ => (0xF0FF, 0xF033)
  | .stRegs _ => (0xF0FF, 0xF055)
  | .ldRegs _ => (0xF0FF, 0xF065)

/-- The encoded word selects the instruction's row. -/
def EncodesInRow.Statement (i : Instr) : Prop := encode i &&& (rowOf i).1 = (rowOf i).2

theorem EncodesInRow.cls : EncodesInRow.Statement .cls := by unfold EncodesInRow.Statement; decide

theorem EncodesInRow.ret : EncodesInRow.Statement .ret := by unfold EncodesInRow.Statement; decide

theorem EncodesInRow.jp (nnn : Addr12) : EncodesInRow.Statement (.jp nnn) :=
  (packA_and_family _ _).trans rfl

theorem EncodesInRow.call (nnn : Addr12) : EncodesInRow.Statement (.call nnn) :=
  (packA_and_family _ _).trans rfl

theorem EncodesInRow.seImm (x : RegIdx) (nn : Byte) : EncodesInRow.Statement (.seImm x nn) :=
  (packXB_and_family _ _ _).trans rfl

theorem EncodesInRow.sneImm (x : RegIdx) (nn : Byte) : EncodesInRow.Statement (.sneImm x nn) :=
  (packXB_and_family _ _ _).trans rfl

theorem EncodesInRow.seReg (x : RegIdx) (y : RegIdx) : EncodesInRow.Statement (.seReg x y) :=
  (packXY_and_subOpcode _ _ _ _).trans rfl

theorem EncodesInRow.ldImm (x : RegIdx) (nn : Byte) : EncodesInRow.Statement (.ldImm x nn) :=
  (packXB_and_family _ _ _).trans rfl

theorem EncodesInRow.addImm (x : RegIdx) (nn : Byte) : EncodesInRow.Statement (.addImm x nn) :=
  (packXB_and_family _ _ _).trans rfl

theorem EncodesInRow.ldReg (x : RegIdx) (y : RegIdx) : EncodesInRow.Statement (.ldReg x y) :=
  (packXY_and_subOpcode _ _ _ _).trans rfl

theorem EncodesInRow.or (x : RegIdx) (y : RegIdx) : EncodesInRow.Statement (.or x y) :=
  (packXY_and_subOpcode _ _ _ _).trans rfl

theorem EncodesInRow.and (x : RegIdx) (y : RegIdx) : EncodesInRow.Statement (.and x y) :=
  (packXY_and_subOpcode _ _ _ _).trans rfl

theorem EncodesInRow.xor (x : RegIdx) (y : RegIdx) : EncodesInRow.Statement (.xor x y) :=
  (packXY_and_subOpcode _ _ _ _).trans rfl

theorem EncodesInRow.addReg (x : RegIdx) (y : RegIdx) : EncodesInRow.Statement (.addReg x y) :=
  (packXY_and_subOpcode _ _ _ _).trans rfl

theorem EncodesInRow.sub (x : RegIdx) (y : RegIdx) : EncodesInRow.Statement (.sub x y) :=
  (packXY_and_subOpcode _ _ _ _).trans rfl

theorem EncodesInRow.shr (x : RegIdx) (y : RegIdx) : EncodesInRow.Statement (.shr x y) :=
  (packXY_and_subOpcode _ _ _ _).trans rfl

theorem EncodesInRow.subn (x : RegIdx) (y : RegIdx) : EncodesInRow.Statement (.subn x y) :=
  (packXY_and_subOpcode _ _ _ _).trans rfl

theorem EncodesInRow.shl (x : RegIdx) (y : RegIdx) : EncodesInRow.Statement (.shl x y) :=
  (packXY_and_subOpcode _ _ _ _).trans rfl

theorem EncodesInRow.sneReg (x : RegIdx) (y : RegIdx) : EncodesInRow.Statement (.sneReg x y) :=
  (packXY_and_subOpcode _ _ _ _).trans rfl

theorem EncodesInRow.ldI (nnn : Addr12) : EncodesInRow.Statement (.ldI nnn) :=
  (packA_and_family _ _).trans rfl

theorem EncodesInRow.jpVx (x : RegIdx) (nnn : Addr12) : EncodesInRow.Statement (.jpVx x nnn) :=
  (packA_and_family _ _).trans rfl

theorem EncodesInRow.rnd (x : RegIdx) (nn : Byte) : EncodesInRow.Statement (.rnd x nn) :=
  (packXB_and_family _ _ _).trans rfl

theorem EncodesInRow.drw (x : RegIdx) (y : RegIdx) (n : Nibble) : EncodesInRow.Statement (.drw x y n) :=
  (packXY_and_family _ _ _ _).trans rfl

theorem EncodesInRow.skp (x : RegIdx) : EncodesInRow.Statement (.skp x) :=
  (packXB_and_subOpcode _ _ _).trans rfl

theorem EncodesInRow.sknp (x : RegIdx) : EncodesInRow.Statement (.sknp x) :=
  (packXB_and_subOpcode _ _ _).trans rfl

theorem EncodesInRow.ldVxDt (x : RegIdx) : EncodesInRow.Statement (.ldVxDt x) :=
  (packXB_and_subOpcode _ _ _).trans rfl

theorem EncodesInRow.ldVxK (x : RegIdx) : EncodesInRow.Statement (.ldVxK x) :=
  (packXB_and_subOpcode _ _ _).trans rfl

theorem EncodesInRow.ldDtVx (x : RegIdx) : EncodesInRow.Statement (.ldDtVx x) :=
  (packXB_and_subOpcode _ _ _).trans rfl

theorem EncodesInRow.ldStVx (x : RegIdx) : EncodesInRow.Statement (.ldStVx x) :=
  (packXB_and_subOpcode _ _ _).trans rfl

theorem EncodesInRow.addI (x : RegIdx) : EncodesInRow.Statement (.addI x) :=
  (packXB_and_subOpcode _ _ _).trans rfl

theorem EncodesInRow.ldF (x : RegIdx) : EncodesInRow.Statement (.ldF x) :=
  (packXB_and_subOpcode _ _ _).trans rfl

theorem EncodesInRow.ldB (x : RegIdx) : EncodesInRow.Statement (.ldB x) :=
  (packXB_and_subOpcode _ _ _).trans rfl

theorem EncodesInRow.stRegs (x : RegIdx) : EncodesInRow.Statement (.stRegs x) :=
  (packXB_and_subOpcode _ _ _).trans rfl

theorem EncodesInRow.ldRegs (x : RegIdx) : EncodesInRow.Statement (.ldRegs x) :=
  (packXB_and_subOpcode _ _ _).trans rfl

end Sys2Proof.Laws
end

