-- ==== Sys2Proof/Laws/Step.lean ====
section
/-! SUPPORT. What the guard, the fetch and the step do (40_flow R120 to R124), and which phase a step ends in. -/

namespace Sys2Proof.Machine

/-! The guard (40_flow R121). -/

theorem lt_pcMax_iff (w : Word) : Config.pcMax < w ↔ 0xFFF < w.toNat := by
  rw [BitVec.lt_def]; exact Iff.rfl

theorem lt_stackDepth_iff (w : BitVec 5) : Config.stackDepth < w ↔ 16 < w.toNat := by
  rw [BitVec.lt_def]; exact Iff.rfl

/-- Everything the guard can answer. -/
theorem guardError_cases (s : State) :
    (0xFFF < s.pc.toNat ∧ guardError s = some (.memoryBounds s.pc)) ∨
    (s.pc.toNat ≤ 0xFFF ∧ 0xFFF < s.i.toNat ∧ guardError s = some (.memoryBounds s.i)) ∨
    (s.pc.toNat ≤ 0xFFF ∧ s.i.toNat ≤ 0xFFF ∧ 16 < s.sp.toNat ∧ guardError s = some (.stackOverflow s.pc)) ∨
    (s.pc.toNat ≤ 0xFFF ∧ s.i.toNat ≤ 0xFFF ∧ s.sp.toNat ≤ 16 ∧ guardError s = none) := by
  unfold guardError
  simp only [lt_pcMax_iff, lt_stackDepth_iff]
  by_cases h1 : 0xFFF < s.pc.toNat
  · exact .inl ⟨h1, if_pos h1⟩
  · by_cases h2 : 0xFFF < s.i.toNat
    · exact .inr (.inl ⟨by omega, h2, by rw [if_neg h1, if_pos h2]⟩)
    · by_cases h3 : 16 < s.sp.toNat
      · exact .inr (.inr (.inl ⟨by omega, by omega, h3, by rw [if_neg h1, if_neg h2, if_pos h3]⟩))
      · exact .inr (.inr (.inr ⟨by omega, by omega, by omega, by rw [if_neg h1, if_neg h2, if_neg h3]⟩))

/-! The fetch (40_flow R122). -/

/-- A fetch whose two bytes lie in memory gives the big-endian word and advances `pc`. -/
theorem fetch_ok {s : State} (h : s.pc.toNat < 0xFFF) : fetch s = .ok (s.wordAtPc, s.advance) := by
  have h1 := toNat_succ_of_le (show s.pc.toNat ≤ 0xFFF by omega)
  have h2 := memRead_ok (s := s) (show s.pc.toNat ≤ 0xFFF by omega)
  have h3 := memRead_ok (s := s) (show (s.pc + 1).toNat ≤ 0xFFF by omega)
  simp only [fetch, h2, h3, h1, State.wordAtPc]

/-- The fetch at `0xFFF` raises at its second byte. -/
theorem fetch_top {s : State} (h : s.pc.toNat = 0xFFF) : fetch s = .error (.memoryBounds 0x1000) := by
  have h1 : s.pc + 1 = 0x1000 := BitVec.eq_of_toNat_eq (by
    rw [toNat_succ_of_le (by omega), h]; rfl)
  simp only [fetch, memRead_ok (show s.pc.toNat ≤ 0xFFF by omega), h1,
    memRead_error (show 0xFFF < (0x1000 : Word).toNat by decide)]

theorem State.canFetch.guardedFetch_eq {s : State} (h : s.canFetch) : guardedFetch s = .ok (s.wordAtPc, s.advance) := by
  obtain ⟨-, hpc, hi, hsp⟩ := h
  have hg : guardError s = none := by
    rcases guardError_cases s with ⟨h1, -⟩ | ⟨-, h1, -⟩ | ⟨-, -, h1, -⟩ | ⟨-, -, -, h1⟩
    · omega
    · omega
    · omega
    · exact h1
  simp only [guardedFetch, hg, fetch_ok hpc]

/-! The step (40_flow R120). -/

theorem step_halted {s : State} (h : s.halted = true) : step s = .next s := by
  simp [step, h]

theorem step_of_error {s : State} {e : FatalError} (h : s.halted = false) (hf : guardedFetch s = .error e) :
    step s = .next (s.raise e) := by
  simp [step, h, hf]

theorem step_of_insn {s : State} {i : Instr} (h : s.canFetch) (hd : decodeWord s.wordAtPc = .insn i) :
    step s = exec i s.advance := by
  simp [step, h.1, h.guardedFetch_eq, hd]

theorem step_of_unknown {s : State} {w : Word} (h : s.canFetch) (hd : decodeWord s.wordAtPc = .unknown w) :
    step s = execUnknown w s.advance := by
  simp [step, h.1, h.guardedFetch_eq, hd]

/-- A running machine whose `pc` is out of bounds raises at its next step (40_flow R121, R133). -/
theorem State.raisesBounds_pc {s : State} (h : s.halted = false) (hpc : 0xFFF < s.pc.toNat) : s.raisesBounds s.pc := by
  refine ⟨h, step_of_error (e := .memoryBounds s.pc) h ?_⟩
  rcases guardError_cases s with ⟨-, hg⟩ | ⟨h1, -⟩ | ⟨h1, -⟩ | ⟨h1, -⟩
  · simp only [guardedFetch, hg]
  all_goals omega

/-- A running machine whose `I` is out of bounds, and whose `pc` is not, raises at its next step (40_flow R121, R133). -/
theorem State.raisesBounds_i {s : State} (h : s.halted = false) (hpc : s.pc.toNat ≤ 0xFFF) (hi : 0xFFF < s.i.toNat) :
    s.raisesBounds s.i := by
  refine ⟨h, step_of_error (e := .memoryBounds s.i) h ?_⟩
  rcases guardError_cases s with ⟨h1, -⟩ | ⟨-, -, hg⟩ | ⟨-, h1, -⟩ | ⟨-, h1, -⟩
  · omega
  · simp only [guardedFetch, hg]
  all_goals omega

/-- Where the fetch passes, its advance does not wrap. -/
theorem State.canFetch.toNat_pc_add {s : State} (h : s.canFetch) : (s.pc + 2).toNat = s.pc.toNat + 2 := by
  have hlt := h.2.1
  have h2 : (2 : Word).toNat = 2 := rfl
  rw [BitVec.toNat_add]
  omega

/-- Every way a step of a running machine goes: it raises before execute, or it executes the decoded instruction, or the
word is unknown. -/
theorem step_cases (s : State) (h : s.halted = false) :
    (∃ e, guardedFetch s = .error e ∧ step s = .next (s.raise e)) ∨
    (s.canFetch ∧ ∃ i, decodeWord s.wordAtPc = .insn i ∧ step s = exec i s.advance) ∨
    (s.canFetch ∧ ∃ w, decodeWord s.wordAtPc = .unknown w ∧ step s = execUnknown w s.advance) := by
  cases hf : guardedFetch s with
  | error e => exact .inl ⟨e, rfl, step_of_error h hf⟩
  | ok r =>
    have hcan : s.canFetch := by
      rcases guardError_cases s with ⟨-, hg⟩ | ⟨-, -, hg⟩ | ⟨-, -, -, hg⟩ | ⟨h1, h2, h3, hg⟩
      · simp [guardedFetch, hg] at hf
      · simp [guardedFetch, hg] at hf
      · simp [guardedFetch, hg] at hf
      · by_cases hpc : s.pc.toNat = 0xFFF
        · simp [guardedFetch, hg, fetch_top hpc] at hf
        · exact ⟨h, by omega, h2, h3⟩
    cases hd : decodeWord s.wordAtPc with
    | insn i => exact .inr (.inl ⟨hcan, i, rfl, step_of_insn hcan hd⟩)
    | unknown w => exact .inr (.inr ⟨hcan, w, rfl, step_of_unknown hcan hd⟩)

/-- What an unknown word carries is the word itself. -/
theorem decodeWord_unknown {w u : Word} (h : decodeWord w = .unknown u) : u = w := by
  unfold decodeWord at h
  split at h
  · exact absurd h (by simp)
  · exact (Decoded.unknown.inj h).symm

end Sys2Proof.Machine
end

