-- ==== Sys2Proof/Tests/Slice0.lean ====
section
/-! SUPPORT. Tests: ill-formed terms, one decoded word per instruction, single steps taken from 95_test_vectors (each
docstring names the vector), and for every statement with hypotheses the states and operands that meet them. -/

namespace Sys2Proof.Tests

open Sys2Proof Sys2Proof.Machine Host

/-! Well-formed and ill-formed terms (30_encoding R92, R100). -/

theorem test_wf_refuses_other_register : (Instr.jpVx 3 0x210).wf = false := by decide

theorem test_wf_accepts_own_register : (Instr.jpVx 2 0x210).wf = true ∧ (Instr.drw 0xF 0xF 0xF).wf = true := by decide

/-! Decoding: a word written out from the encoding of each row (30_encoding R93, R94). -/

theorem test_decode_cls : decodeWord 0x00E0 = .insn .cls := by decide
theorem test_decode_ret : decodeWord 0x00EE = .insn .ret := by decide
theorem test_decode_jp : decodeWord 0x1ABC = .insn (.jp 0xABC) := by decide
theorem test_decode_call : decodeWord 0x220A = .insn (.call 0x20A) := by decide
theorem test_decode_seImm : decodeWord 0x3142 = .insn (.seImm 0x1 0x42) := by decide
theorem test_decode_sneImm : decodeWord 0x400B = .insn (.sneImm 0x0 0x0B) := by decide
theorem test_decode_seReg : decodeWord 0x5230 = .insn (.seReg 0x2 0x3) := by decide
theorem test_decode_ldImm : decodeWord 0x600A = .insn (.ldImm 0x0 0x0A) := by decide
theorem test_decode_addImm : decodeWord 0x7105 = .insn (.addImm 0x1 0x05) := by decide
theorem test_decode_ldReg : decodeWord 0x8120 = .insn (.ldReg 0x1 0x2) := by decide
theorem test_decode_or : decodeWord 0x8121 = .insn (.or 0x1 0x2) := by decide
theorem test_decode_and : decodeWord 0x8122 = .insn (.and 0x1 0x2) := by decide
theorem test_decode_xor : decodeWord 0x8123 = .insn (.xor 0x1 0x2) := by decide
theorem test_decode_addReg : decodeWord 0x8AB4 = .insn (.addReg 0xA 0xB) := by decide
theorem test_decode_sub : decodeWord 0x8015 = .insn (.sub 0x0 0x1) := by decide
theorem test_decode_shr : decodeWord 0x8016 = .insn (.shr 0x0 0x1) := by decide
theorem test_decode_subn : decodeWord 0x8017 = .insn (.subn 0x0 0x1) := by decide
theorem test_decode_shl : decodeWord 0x801E = .insn (.shl 0x0 0x1) := by decide
theorem test_decode_sneReg : decodeWord 0x9230 = .insn (.sneReg 0x2 0x3) := by decide
theorem test_decode_ldI : decodeWord 0xA250 = .insn (.ldI 0x250) := by decide
theorem test_decode_jpVx : decodeWord 0xB210 = .insn (.jpVx 0x2 0x210) := by decide
theorem test_decode_rnd : decodeWord 0xC30F = .insn (.rnd 0x3 0x0F) := by decide
theorem test_decode_drw : decodeWord 0xD015 = .insn (.drw 0x0 0x1 0x5) := by decide
theorem test_decode_skp : decodeWord 0xE49E = .insn (.skp 0x4) := by decide
theorem test_decode_sknp : decodeWord 0xE4A1 = .insn (.sknp 0x4) := by decide
theorem test_decode_ldVxDt : decodeWord 0xF507 = .insn (.ldVxDt 0x5) := by decide
theorem test_decode_ldVxK : decodeWord 0xF30A = .insn (.ldVxK 0x3) := by decide
theorem test_decode_ldDtVx : decodeWord 0xF515 = .insn (.ldDtVx 0x5) := by decide
theorem test_decode_ldStVx : decodeWord 0xF318 = .insn (.ldStVx 0x3) := by decide
theorem test_decode_addI : decodeWord 0xF21E = .insn (.addI 0x2) := by decide
theorem test_decode_ldF : decodeWord 0xF029 = .insn (.ldF 0x0) := by decide
theorem test_decode_ldB : decodeWord 0xF033 = .insn (.ldB 0x0) := by decide
theorem test_decode_stRegs : decodeWord 0xF255 = .insn (.stRegs 0x2) := by decide
theorem test_decode_ldRegs : decodeWord 0xF465 = .insn (.ldRegs 0x4) := by decide

/-- Vectors T4 to T11: words of no row. -/
theorem test_decode_unknown :
    ([0x0000, 0xFFFF, 0x00E1, 0x01E0, 0x02EE, 0x5121, 0x9125, 0x8018, 0x801D, 0x801F, 0xE000, 0xE19F, 0xE1A0, 0xF000,
      0xF106, 0xF175, 0xF1FF] : List Word).all (fun w => decodeWord w == .unknown w) = true := by decide

/-- Vector T1: the byte at the lower address is the high byte; the bytes after the instruction are left. -/
theorem test_decodeBytes_order : decodeBytes [0x12, 0x34, 0x56] = .ok (.jp 0x234, [0x56]) := by decide

theorem test_decodeBytes_rejects : decodeBytes [0x12] = .error .truncated ∧ decodeBytes [] = .error .truncated ∧
    decodeBytes [0xFF, 0xFF] = .error (.unknownWord 0xFFFF) := by decide

/-- The bytes of vectors S7 and S4. -/
theorem test_encode : encodeBytes (.ldImm 0 0x0A) = [0x60, 0x0A] ∧ encodeBytes (.drw 0 0 5) = [0xD0, 0x05] ∧
    encodeBytes (.stRegs 2) = [0xF2, 0x55] := by decide

/-! Single steps. -/

/-- The state after reset with the word at `0x200`. -/
def start (w : Nat) : State := State.reset.withFetchWord 16 w

/-- `V<k> = v`. -/
def withReg (k : RegIdx) (v : Byte) (s : State) : State := s.setReg k v

/-- `Mem[a] = v`. -/
def withByte (a : Nat) (v : Byte) (s : State) : State := { s with mem := s.mem.write a v }

/-- The state after one step, where there is one. -/
def after (s : State) : State :=
  match step s with
  | .next t => t
  | _ => s

/-- The listed pixels, as (row, column). -/
def pixels (s : State) (l : List (Nat × Nat)) : List Bool := l.map fun p => s.pixel p.1 p.2

/-- The fatal latch. -/
def latch (s : State) : Bool × BitVec 3 × Word := (s.halted, s.errCode, s.errInfo)

/-- Vector T3. -/
theorem test_unknown_warns : (after (start 0xFFFF)).pc = 0x202 ∧ (after (start 0xFFFF)).warnings = [⟨0xFFFF, 0x200⟩] := by
  decide

/-- Vector T13: the fetch at `0xFFF` raises before `pc` advances. -/
theorem test_fetch_top : latch (after { start 0 with pc := 0xFFF }) = (true, 1, 0x1000) ∧
    (after { start 0 with pc := 0xFFF }).pc = 0xFFF := by decide

/-- Vector T14: an odd `pc` is fetched like an even one. -/
theorem test_fetch_odd : (after (withByte 0x201 0x6A (withByte 0x202 0x55 { start 0 with pc := 0x201 }))).reg 0xA = 0x55 := by
  decide

/-- Vector T16: `pc` is checked before `I`. -/
theorem test_guard_order : latch (after { start 0 with pc := 0x1002, i := 0x1234 }) = (true, 1, 0x1002) := by decide

/-- Vector T17: the word is never fetched. -/
theorem test_guard_i : latch (after { start 0x6005 with i := 0x1000 }) = (true, 1, 0x1000) ∧
    (after { start 0x6005 with i := 0x1000 }).pc = 0x200 := by decide

/-- Vector T15. -/
theorem test_halted_step : step { start 0x6005 with halted := true, errCode := 3, errInfo := 0x202 } =
    .next { start 0x6005 with halted := true, errCode := 3, errInfo := 0x202 } := by rfl

/-- Vector F1. -/
theorem test_jp : (after (start 0x1ABC)).pc = 0xABC := by decide

/-- Vector F4. -/
theorem test_call : (after (start 0x220A)).stack[0] = 0x202 ∧ (after (start 0x220A)).sp = 1 ∧
    (after (start 0x220A)).pc = 0x20A := by decide

/-- Vector F6. -/
theorem test_call_full : latch (after { start 0x2300 with sp := 16 }) = (true, 2, 0x202) ∧
    (after { start 0x2300 with sp := 16 }).sp = 16 ∧ (after { start 0x2300 with sp := 16 }).pc = 0x202 := by decide

/-- Vector F7, at `0x200`: the popped entry is not cleared. -/
theorem test_ret : (after { start 0x00EE with sp := 1, stack := State.reset.stack.set 0 0x206 }).pc = 0x206 ∧
    (after { start 0x00EE with sp := 1, stack := State.reset.stack.set 0 0x206 }).stack[0] = 0x206 := by decide

/-- Vector F8. -/
theorem test_ret_empty : latch (after (start 0x00EE)) = (true, 3, 0x202) ∧ (after (start 0x00EE)).sp = 0 := by decide

/-- Vectors F9 and F10. -/
theorem test_seImm : (after (withReg 1 0x42 (start 0x3142))).pc = 0x204 ∧
    (after (withReg 1 0x41 (start 0x3142))).pc = 0x202 := by decide

/-- Vectors F11 and F12. -/
theorem test_sneImm : (after (withReg 1 0x41 (start 0x4142))).pc = 0x204 ∧
    (after (withReg 1 0x42 (start 0x4142))).pc = 0x202 := by decide

/-- Vectors F13 and F14. -/
theorem test_seReg : (after (withReg 2 7 (withReg 3 7 (start 0x5230)))).pc = 0x204 ∧
    (after (withReg 2 7 (withReg 3 8 (start 0x5230)))).pc = 0x202 := by decide

/-- Vectors F16 and F17. -/
theorem test_sneReg : (after (withReg 2 7 (withReg 3 8 (start 0x9230)))).pc = 0x204 ∧
    (after (withReg 2 7 (withReg 3 7 (start 0x9230)))).pc = 0x202 := by decide

/-- Vector F21: the register is `V2`, not `V0`. -/
theorem test_jpVx : (after (withReg 0 0x10 (withReg 2 0x04 (start 0xB208)))).pc = 0x20C := by decide

/-- Vector F22: the sum is not reduced to 12 bits. -/
theorem test_jpVx_above : (after (withReg 0xF 0xFF (start 0xBFFF))).pc = 0x10FE := by decide

/-- Vector A2: the flag register is a general register. -/
theorem test_ldImm : (after (start 0x6FFF)).reg 0xF = 0xFF := by decide

/-- Vector A5. -/
theorem test_addImm : (after (withReg 1 0xFF (withReg 0xF 7 (start 0x7101)))).reg 1 = 0 ∧
    (after (withReg 1 0xFF (withReg 0xF 7 (start 0x7101)))).reg 0xF = 7 := by decide

/-- Vector A6: `Vy` into `Vx`. -/
theorem test_ldReg : (after (withReg 2 0x5A (start 0x8120))).reg 1 = 0x5A := by decide

/-- Vector A7. -/
theorem test_or : (after (withReg 1 0xF0 (withReg 2 0x0F (withReg 0xF 9 (start 0x8121))))).reg 1 = 0xFF ∧
    (after (withReg 1 0xF0 (withReg 2 0x0F (withReg 0xF 9 (start 0x8121))))).reg 0xF = 9 := by decide

/-- Vector A8. -/
theorem test_and : (after (withReg 1 0xF0 (withReg 2 0x3C (withReg 0xF 9 (start 0x8122))))).reg 1 = 0x30 ∧
    (after (withReg 1 0xF0 (withReg 2 0x3C (withReg 0xF 9 (start 0x8122))))).reg 0xF = 9 := by decide

/-- Vector A9. -/
theorem test_xor : (after (withReg 1 0xF0 (withReg 2 0x3C (withReg 0xF 9 (start 0x8123))))).reg 1 = 0xCC ∧
    (after (withReg 1 0xF0 (withReg 2 0x3C (withReg 0xF 9 (start 0x8123))))).reg 0xF = 9 := by decide

/-- Vector S5. -/
theorem test_addReg : (after (withReg 0 0xFF (withReg 1 0x01 (start 0x8014)))).reg 0 = 0x00 ∧
    (after (withReg 0 0xFF (withReg 1 0x01 (start 0x8014)))).reg 0xF = 1 := by decide

/-- Vectors A26 and A27: the flag is written last. -/
theorem test_addReg_flag_last : (after (withReg 0xF 0xFF (withReg 1 0x01 (start 0x8F14)))).reg 0xF = 1 ∧
    (after (withReg 0xF 0x01 (withReg 1 0x01 (start 0x8F14)))).reg 0xF = 0 := by decide

/-- Vector A13: `Vx - Vy`, a borrow gives 0. -/
theorem test_sub : (after (withReg 0 3 (withReg 1 5 (start 0x8015)))).reg 0 = 0xFE ∧
    (after (withReg 0 3 (withReg 1 5 (start 0x8015)))).reg 0xF = 0 := by decide

/-- Vector A14: equal operands do not borrow. -/
theorem test_sub_equal : (after (withReg 0 7 (withReg 1 7 (start 0x8015)))).reg 0xF = 1 := by decide

/-- Vector A16: `Vy - Vx`. -/
theorem test_subn : (after (withReg 0 3 (withReg 1 5 (start 0x8017)))).reg 0 = 2 ∧
    (after (withReg 0 3 (withReg 1 5 (start 0x8017)))).reg 0xF = 1 := by decide

/-- Vector A17. -/
theorem test_subn_borrow : (after (withReg 0 5 (withReg 1 3 (start 0x8017)))).reg 0 = 0xFE ∧
    (after (withReg 0 5 (withReg 1 3 (start 0x8017)))).reg 0xF = 0 := by decide

/-- Vector A20: `Vy` is ignored. -/
theorem test_shr : (after (withReg 0 0x05 (withReg 1 0xF0 (start 0x8016)))).reg 0 = 0x02 ∧
    (after (withReg 0 0x05 (withReg 1 0xF0 (start 0x8016)))).reg 0xF = 1 := by decide

/-- Vector A28: the flag wins over the result. -/
theorem test_shr_flag : (after (withReg 0xF 0x02 (start 0x8F06))).reg 0xF = 0 := by decide

/-- Vector A23: `Vy` is ignored. -/
theorem test_shl : (after (withReg 0 0x81 (withReg 1 0x0F (start 0x801E)))).reg 0 = 0x02 ∧
    (after (withReg 0 0x81 (withReg 1 0x0F (start 0x801E)))).reg 0xF = 1 := by decide

/-- Vector A24. -/
theorem test_shl_no_carry : (after (withReg 0 0x40 (withReg 0xF 1 (start 0x801E)))).reg 0 = 0x80 ∧
    (after (withReg 0 0x40 (withReg 0xF 1 (start 0x801E)))).reg 0xF = 0 := by decide

/-- Vector A34: whatever byte the draw is. -/
theorem test_rnd : (after (start 0xC3FF)).draws = 1 ∧ (after (start 0xC3FF)).reg 3 = Config.draw 0 &&& 0xFF :=
  ⟨rfl, rfl⟩

/-- Vector M2. -/
theorem test_ldI : (after (start 0xAFFF)).i = 0xFFF := by decide

/-- Vector M4: `I` passes `0xFFF` without a fault. -/
theorem test_addI : (after (withReg 2 1 { start 0xF21E with i := 0xFFF })).i = 0x1000 ∧
    (after (withReg 2 1 { start 0xF21E with i := 0xFFF })).halted = false := by decide

/-- Vectors M8 and M9: no mask. -/
theorem test_ldF : (after (withReg 0 0x1A (start 0xF029))).i = 0x0D2 ∧
    (after (withReg 0 0xFF (start 0xF029))).i = 0x54B := by decide

/-- Vector M10. -/
theorem test_ldB : (after (withReg 0 156 { start 0xF033 with i := 0x300 })).mem =
    [(0x200, 0xF0), (0x201, 0x33), (0x300, 1), (0x301, 5), (0x302, 6)] := by decide

/-- Vector M14: the bytes before the raise stay written. -/
theorem test_ldB_top : latch (after (withReg 0 123 { start 0xF033 with i := 0xFFE })) = (true, 1, 0x1000) ∧
    (after (withReg 0 123 { start 0xF033 with i := 0xFFE })).mem =
      [(0x200, 0xF0), (0x201, 0x33), (0xFFE, 1), (0xFFF, 2)] := by decide

/-- Vector M18: the block ends at the last byte; `I` moves past it and the step completes. -/
theorem test_stRegs : latch (after (withReg 0 0xAB { start 0xF055 with i := 0xFFF })) = (false, 0, 0) ∧
    (after (withReg 0 0xAB { start 0xF055 with i := 0xFFF })).i = 0x1000 := by decide

/-- Vector M19: `I` is not advanced. -/
theorem test_stRegs_top : latch (after (withReg 0 0xAB (withReg 1 0xCD { start 0xF155 with i := 0xFFF }))) = (true, 1, 0x1000) ∧
    (after (withReg 0 0xAB (withReg 1 0xCD { start 0xF155 with i := 0xFFF }))).i = 0xFFF := by decide

/-- Vector M21: the glyph of the digit 0. -/
theorem test_ldRegs : (after { start 0xF465 with i := 0x050 }).x.toList.take 6 = [0xF0, 0x90, 0x90, 0x90, 0xF0, 0] ∧
    (after { start 0xF465 with i := 0x050 }).i = 0x055 := by decide

/-- Vector M22. -/
theorem test_ldRegs_top : (after (withReg 1 0x22 (withByte 0xFFF 0x77 { start 0xF165 with i := 0xFFF }))).reg 0 = 0x77 ∧
    (after (withReg 1 0x22 (withByte 0xFFF 0x77 { start 0xF165 with i := 0xFFF }))).reg 1 = 0x22 ∧
    (after (withReg 1 0x22 (withByte 0xFFF 0x77 { start 0xF165 with i := 0xFFF }))).i = 0xFFF := by decide

/-- Vector V1. -/
theorem test_cls : (after ((start 0x00E0).setPixel 3 4 true)).pixel 3 4 = false ∧
    (after ((start 0x00E0).setPixel 3 4 true)).dirty = true := by decide

/-- Vector S3: the sprite wraps to column 0. -/
theorem test_drw :
    pixels (after (withReg 0 63 (withReg 1 31 (withByte 0x300 0xFF { start 0xD011 with i := 0x300 }))))
      [(31, 63), (31, 0), (31, 6), (31, 7), (31, 62), (0, 0)] = [true, true, true, false, false, false] := by decide

/-- Vector V10: the rows before the raise stay drawn, `dirty` is not set. -/
theorem test_drw_top :
    pixels (after (withByte 0xFFE 0x80 (withByte 0xFFF 0x80 { start 0xD013 with i := 0xFFE }))) [(0, 0), (1, 0), (2, 0)] =
      [true, true, false] ∧
    latch (after (withByte 0xFFE 0x80 (withByte 0xFFF 0x80 { start 0xD013 with i := 0xFFE }))) = (true, 1, 0x1000) ∧
    (after (withByte 0xFFE 0x80 (withByte 0xFFF 0x80 { start 0xD013 with i := 0xFFE }))).dirty = false := by decide

/-- Vector V6: the collision. -/
theorem test_drw_collision :
    (after ((withByte 0x300 0xF0 { start 0xD011 with i := 0x300 }).setPixel 0 3 true)).reg 0xF = 1 := by decide

/-- Vector K3: the index is the low nibble. -/
theorem test_skp : (after (withReg 4 0x1A { start 0xE49E with keys := 0x0400 })).pc = 0x204 ∧
    (after (withReg 4 5 (start 0xE49E))).pc = 0x202 := by decide

/-- Vectors K4 and K6. -/
theorem test_sknp : (after (withReg 4 5 (start 0xE4A1))).pc = 0x204 ∧
    (after (withReg 4 0xF5 { start 0xE4A1 with keys := 0x0020 })).pc = 0x202 := by decide

/-- Vector K7: nothing changes. -/
theorem test_ldVxK_none : step (withReg 3 0x77 (start 0xF30A)) = .next (withReg 3 0x77 (start 0xF30A)) := by rfl

/-- Vector K9: the lowest index. -/
theorem test_ldVxK : (after { start 0xF30A with keys := 0x8200 }).reg 3 = 9 ∧
    (after { start 0xF30A with keys := 0x8200 }).pc = 0x202 := by decide

/-- Vector K11. -/
theorem test_ldVxDt : (after { start 0xF507 with dt := 0x2A }).reg 5 = 0x2A := by decide

/-- Vector K13. -/
theorem test_ldDtVx : (after { start 0xF515 with dt := 9 }).dt = 0 := by decide

/-- Vector K15: `tone` does not drop at once. -/
theorem test_ldStVx : (after { start 0xF318 with st := 4, tone := true }).st = 0 ∧
    (after { start 0xF318 with st := 4, tone := true }).tone = true := by decide

/-! Events. -/

/-- Vector E4: the tick that takes `ST` to 0 still asserts the tone. -/
theorem test_tick : (tick { State.reset with st := 1 }).st = 0 ∧ (tick { State.reset with st := 1 }).tone = true ∧
    (tick (tick { State.reset with st := 1 })).tone = false := by decide

/-- Vector E9. -/
theorem test_fbRead : (fbRead (State.reset.setPixel 2 1 true)).pixels[129]? = some true ∧
    (fbRead (State.reset.setPixel 2 1 true)).pixels[66]? = some false := by decide

/-- Vector E13, and the size of the glyph table. -/
theorem test_reset_glyphs : State.reset.mem.read 0x050 = 0xF0 ∧ State.reset.mem.read 0x09B = 0xF0 ∧
    State.reset.mem.read 0x09F = 0x80 ∧ State.reset.mem.read 0x04F = 0 ∧ State.reset.mem.read 0x0A0 = 0 ∧
    Config.glyphRom.length = Config.glyphCount * Config.glyphStride := by decide

/-- A write keeps memory canonical: writing what an unlisted address reads as removes the cell. -/
theorem test_memory_canonical : Memory.write [(0x300, 1)] 0x300 0 = [] ∧ Memory.write [] 0x050 0xF0 = [] ∧
    Memory.wf [(0x300, 0)] = false ∧ Memory.wf [(0x301, 1), (0x300, 1)] = false ∧ Memory.wf [(0x1000, 1)] = false := by
  decide

/-! Witnesses: for every statement with hypotheses, states and operands that meet all of them together, clause by clause
and at the ends of the ranges. A witness carries the name of its statement. -/

/-- The last state a fetch can pass from: `pc`, `I` and `SP` at their bounds. -/
def edge : State := { State.reset with pc := 0xFFE, i := 0xFFF, sp := 16 }

theorem canFetch_start (w : Nat) : (start w).canFetch := ⟨rfl, by
  show (0x200 : Word).toNat < 0xFFF; decide, by show (0 : Word).toNat ≤ 0xFFF; decide, by
  show (0 : BitVec 5).toNat ≤ 16; decide⟩

theorem canFetch_edge : edge.canFetch := ⟨rfl, by decide, by decide, by decide⟩

theorem inv_reset : State.reset.Inv :=
  ⟨rfl, by decide, by decide, by decide, by decide, fun _ => ⟨rfl, rfl⟩, fun h => by cases h⟩

theorem witness_StepRunsDecodedInstruction :
    (start 0x600A).canFetch ∧ decodeWord (start 0x600A).wordAtPc = .insn (.ldImm 0x0 0x0A) :=
  ⟨canFetch_start _, by decide⟩

theorem witness_FetchIsBigEndianAndAdvances :
    (edge.pc.toNat ≤ 0xFFF ∧ edge.pc ≠ 0xFFF) ∧
    ({ edge with pc := 0xFFF }.pc.toNat ≤ 0xFFF ∧ { edge with pc := 0xFFF }.pc = 0xFFF) := by decide

theorem witness_StepRaisesBeforeExecuteInOrder : edge.halted = false ∧
    0xFFF < { edge with pc := 0x1000 }.pc.toNat ∧
    ({ edge with pc := 0xFFF, i := 0x1000 }.pc.toNat ≤ 0xFFF ∧ 0xFFF < { edge with pc := 0xFFF, i := 0x1000 }.i.toNat) ∧
    ({ edge with pc := 0xFFF, sp := 17 }.pc.toNat ≤ 0xFFF ∧ { edge with pc := 0xFFF, sp := 17 }.i.toNat ≤ 0xFFF ∧
      16 < { edge with pc := 0xFFF, sp := 17 }.sp.toNat) ∧
    ({ edge with pc := 0xFFF }.pc.toNat = 0xFFF ∧ { edge with pc := 0xFFF }.i.toNat ≤ 0xFFF ∧
      { edge with pc := 0xFFF }.sp.toNat ≤ 16) := by decide

theorem witness_UnknownWordOnlyWarns :
    (start 0xFFFF).canFetch ∧ decodeWord (start 0xFFFF).wordAtPc = .unknown 0xFFFF := ⟨canFetch_start _, by decide⟩

/-- One running state for each of the three endings. -/
theorem witness_StepEndsInOneOfThreeWays :
    ((start 0x600A).halted = false ∧ stepEnding (start 0x600A) (after (start 0x600A)) = .completed) ∧
    ((start 0xFFFF).halted = false ∧ stepEnding (start 0xFFFF) (after (start 0xFFFF)) = .warned ⟨0xFFFF, 0x200⟩) ∧
    ((start 0x00EE).halted = false ∧ stepEnding (start 0x00EE) (after (start 0x00EE)) = .fatal 3 0x202) := by decide

theorem witness_DecodeOfEncodeIsTheInstruction : (Instr.jpVx 0xF 0xFFF).wf = true := by decide

theorem witness_EncodeOfDecodeIsTheWord : decodeWord 0xBFFF = .insn (.jpVx 0xF 0xFFF) ∧
    (Instr.jpVx 0xF 0xFFF).wf = true ∧ encode (.jpVx 0xF 0xFFF) = 0xBFFF := by decide

theorem witness_MemoryAccessIsBoundsChecked : State.reset.mem.wf = true ∧ (0xFFF : Word).toNat ≤ 0xFFF ∧
    0xFFF < (0x1000 : Word).toNat := by decide

theorem witness_EqualMemoriesAreEqualData : Memory.wf [(0x300, 1)] = true ∧ Memory.wf (Memory.write [] 0x300 1) = true ∧
    ∀ a, Memory.read [(0x300, 1)] a = (Memory.write [] 0x300 1).read a := ⟨by decide, by decide, fun _ => rfl⟩

theorem witness_StoredWordIsFetchedNext : edge.canFetch ∧ edge.mem.wf = true ∧
    decodeTableWord 16 (0x600A : Word).toNat = some (.ldImm 0x0 0x0A) := ⟨canFetch_edge, by decide, by decide⟩

/-- The longest image that fits: for `ResetMeetsInvariant`, `EveryEventSequenceTakesPlace`,
`ResetLeavesGlyphsImageAndZeros`. -/
theorem witness_image_fits : ([] : List Byte).length ≤ 3584 ∧ (List.replicate 3584 (0x5A : Byte)).length ≤ 3584 :=
  ⟨Nat.zero_le _, by rw [List.length_replicate]⟩

theorem witness_ResetStartsAtTheVector : ([0x12, 0x34] : List Byte).length ≤ 3584 ∧
    ([0x12, 0x34] : List Byte) = 0x12 :: [0x34] := ⟨by decide, rfl⟩

theorem witness_StepKeepsInvariant : State.reset.Inv ∧ step State.reset = .next (after State.reset) := ⟨inv_reset, rfl⟩

theorem witness_EventsKeepInvariant : (Block.on State.reset).Inv ∧
    Block.apply .tick (.on State.reset) = .done (.on (tick State.reset)) .quiet := ⟨inv_reset, rfl⟩

theorem witness_OnlyNamedRegistersAreWritten :
    ∃ t, exec (.ldRegs 0x2) { State.reset with i := 0x050 } = .next t ∧ ¬ mayWriteReg (.ldRegs 0x2) 0x3 :=
  ⟨_, rfl, by unfold mayWriteReg; decide⟩

/-- A load-immediate meets the premise of every clause of the frame at once. -/
theorem witness_InstructionsChangeOnlyNamedState : ∃ i t, exec i { State.reset with dirty := true } = .next t ∧
    ({ State.reset with dirty := true } : State).dirty = true ∧ i ≠ .cls ∧ (∀ x y n, i ≠ .drw x y n) ∧
    (∀ x, i ≠ .ldB x) ∧ (∀ x, i ≠ .stRegs x) ∧ (∀ x, i ≠ .ldDtVx x) ∧ (∀ x, i ≠ .ldStVx x) ∧ i ≠ .ret ∧
    (∀ a, i ≠ .call a) ∧ (∀ a, i ≠ .ldI a) ∧ (∀ x, i ≠ .addI x) ∧ (∀ x, i ≠ .ldF x) ∧ (∀ x, i ≠ .ldRegs x) ∧
    (∀ x n, i ≠ .rnd x n) ∧ (∀ a, i ≠ .jp a) ∧ (∀ x n, i ≠ .seImm x n) ∧ (∀ x n, i ≠ .sneImm x n) ∧
    (∀ x y, i ≠ .seReg x y) ∧ (∀ x y, i ≠ .sneReg x y) ∧ (∀ x a, i ≠ .jpVx x a) ∧ (∀ x, i ≠ .skp x) ∧
    (∀ x, i ≠ .sknp x) ∧ (∀ x, i ≠ .ldVxK x) :=
  ⟨.ldImm 3 5, _, rfl, by simp⟩

/-- Each raising instruction, raising and not raising, from a running state. -/
theorem witness_OnlyListedInstructionsRaise :
    ([(.call 0x300, { State.reset with sp := 16 }), (.ret, State.reset), (.drw 0 0 1, { State.reset with i := 0x1000 }),
      (.ldB 0, { State.reset with i := 0xFFE }), (.stRegs 1, { State.reset with i := 0xFFF }),
      (.ldRegs 1, { State.reset with i := 0xFFF })] : List (Instr × State)).all
        (fun p => !p.2.halted && match exec p.1 p.2 with | .next t => t.halted | _ => false) = true ∧
    ([(.call 0x300, { State.reset with sp := 15 }), (.ret, { State.reset with sp := 1 }),
      (.drw 0 0 1, { State.reset with i := 0xFFF }), (.ldB 0, { State.reset with i := 0xFFD }),
      (.stRegs 0, { State.reset with i := 0xFFF }), (.ldRegs 0, { State.reset with i := 0xFFF }),
      (.cls, State.reset)] : List (Instr × State)).all
        (fun p => !p.2.halted && match exec p.1 p.2 with | .next t => !t.halted | _ => false) = true := by decide

theorem witness_OutputsAreNotReadByPrograms :
    ∃ s s' t : State, s ≠ s' ∧
      s' = { s with st := s'.st, tone := s'.tone, dirty := s'.dirty, warnings := s'.warnings } ∧ step s = .next t :=
  ⟨start 0xF318, { start 0xF318 with st := 9, tone := true, dirty := true, warnings := [⟨0, 0x200⟩] }, _,
    by decide, rfl, rfl⟩

/-- A sprite of one row with its leftmost bit set, on a lit and on an unlit pixel; the last row that lies in memory. -/
def sprite : State := withByte 0xFFF 0x80 { State.reset with i := 0xFFF }

theorem witness_DrawSpriteXorsAndReportsCollision :
    ((1 : Nibble) = 0 ∨ sprite.i.toNat + (1 : Nibble).toNat ≤ 0x1000) ∧
    ((0 : Nibble) = 0 ∨ sprite.i.toNat + (0 : Nibble).toNat ≤ 0x1000) ∧
    (sprite.setPixel 0 0 true).spriteCollides 0 0 1 ∧ ¬ sprite.spriteCollides 0 0 1 :=
  ⟨by decide, by decide, ⟨0, 0, ⟨0, by decide, 0, by decide, by decide⟩, by decide⟩, by
    rintro ⟨r, c, -, h⟩
    simp [State.pixel, sprite, withByte, State.reset] at h⟩

theorem witness_DrawSpriteRaisesAtFirstBadRow :
    ((2 : Nibble) ≠ 0 ∧ 0x1000 < sprite.i.toNat + (2 : Nibble).toNat) ∧
    (sprite.setPixel 0 0 true).spriteCollides 0 0 (0x1000 - sprite.i.toNat) ∧
    ¬ sprite.spriteCollides 0 0 (0x1000 - sprite.i.toNat) ∧
    0x1000 < { sprite with i := 0x1000 }.i.toNat + (1 : Nibble).toNat :=
  ⟨by decide, ⟨0, 0, ⟨0, by decide, 0, by decide, by decide⟩, by decide⟩, by
    rintro ⟨r, c, -, h⟩
    simp [State.pixel, sprite, withByte, State.reset] at h, by decide⟩

theorem witness_DrawTwiceRestoresTheScreen :
    (0x0 : RegIdx) ≠ 0xF ∧ (0x1 : RegIdx) ≠ 0xF ∧ sprite.i.toNat + (1 : Nibble).toNat ≤ 0x1000 := by decide

theorem witness_ReturnPopsTheStack :
    ({ State.reset with sp := 16 }.sp.toNat - 1 < 16 ∧ { State.reset with sp := 16 }.sp ≠ 0) ∧ State.reset.sp = 0 := by
  decide

/-- For `CallPushesReturnAddress` and `CallThenReturnComesBack`. -/
theorem witness_CallPushesReturnAddress :
    { State.reset with sp := 15 }.sp.toNat < 16 ∧ { State.reset with sp := 16 }.sp = 16 := by decide

theorem witness_MissingStackEntryStopsByName :
    16 < { State.reset with sp := 17 }.sp.toNat ∧ { State.reset with sp := 17 }.halted = false := by decide

theorem witness_JumpWithOffsetAddsRegister : (Instr.jpVx 0xF 0xFFF).wf = true := by decide

/-- For the clauses about `x[X]` and about the other registers in `AddSetsCarry`, `SubtractSetsNoBorrow`,
`ShiftsMoveOneBit`, `ImmediateFormsWriteOneRegister`, `BlockUntilKeyLoadsLowestKey` and the draws. -/
theorem witness_register_clauses : (0x0 : RegIdx) ≠ 0xF ∧ (0x1 : RegIdx) ≠ 0x0 ∧ (0x1 : RegIdx) ≠ 0xF := by decide

theorem witness_StoreDigitsWritesThreeBytes :
    State.reset.mem.wf = true ∧ { State.reset with i := 0xFFD }.i.toNat + 2 ≤ 0xFFF := by decide

/-- For `StoreRegistersWritesTheBlock` and `LoadRegistersReadsTheBlock`: the block ends at the last byte. -/
theorem witness_StoreRegistersWritesTheBlock :
    State.reset.mem.wf = true ∧ { State.reset with i := 0xFF0 }.i.toNat + (0xF : RegIdx).toNat ≤ 0xFFF ∧
    { State.reset with i := 0xFFF }.i.toNat + (0x0 : RegIdx).toNat ≤ 0xFFF := by decide

theorem witness_TransfersRaiseAtFirstBadAddress : State.reset.mem.wf = true ∧
    (0xFFF < { State.reset with i := 0xFFE }.i.toNat + 2 ∧ { State.reset with i := 0xFFE }.i.toNat + 1 ≤ 0xFFF) ∧
    (0xFFF < { State.reset with i := 0xFFF }.i.toNat + (0x1 : RegIdx).toNat ∧
      { State.reset with i := 0xFFF }.i.toNat + (0x0 : RegIdx).toNat ≤ 0xFFF) := by decide

theorem witness_StoreThenLoadRestoresRegisters : ∃ s t u : State, s.mem.wf = true ∧ s.i.toNat + (0x2 : RegIdx).toNat ≤ 0xFFF ∧
    exec (.stRegs 0x2) s = .next t ∧ u.mem = t.mem ∧ u.i = s.i ∧ u.reg 0x1 ≠ s.reg 0x1 ∧ (0x1 : RegIdx).toNat ≤ (0x2 : RegIdx).toNat :=
  ⟨{ State.reset with i := 0x300 }, _, withReg 1 9 { State.reset with i := 0x300 }, by decide, by decide, rfl, by decide,
    by decide, by decide, by decide⟩

theorem witness_BlockUntilKeyLoadsLowestKey : State.reset.keys = 0 ∧ { State.reset with keys := 0x8000 }.keys ≠ 0 := by
  decide

theorem witness_BlockUntilKeySpins : (start 0xF30A).canFetch ∧
    decodeWord (start 0xF30A).wordAtPc = .insn (.ldVxK 0x3) ∧ (start 0xF30A).keys = 0 :=
  ⟨canFetch_start _, by decide, by decide⟩

theorem witness_HaltedBlockIsAbsorbing : { State.reset with halted := true, errCode := 1 }.halted = true ∧
    ∀ image, Event.tick ≠ .reset image := ⟨rfl, by simp⟩

theorem witness_OversizeImageChangesNothing : 3584 < (List.replicate 3585 (0 : Byte)).length ∧
    ∀ image, Event.step ≠ .reset image := ⟨by rw [List.length_replicate]; decide, by simp⟩

theorem witness_JumpToSelfIsAFixedPoint : (start 0x1200).canFetch ∧ (start 0x1200).pc = (0x200 : Addr12).setWidth 16 ∧
    (start 0x1200).wordAtPc = 0x1000 ||| (0x200 : Addr12).setWidth 16 := ⟨canFetch_start _, by decide, by decide⟩

/-- The state with a word at `pc`, and `pc`, `I` at the values given. -/
def startAt (pc i : Word) (w : Nat) : State := { State.reset.setPc pc |>.withFetchWord 16 w with i := i }

/-- The smallest sum out of range, and blocks that end at the last byte, at the last two places a fetch can pass from. -/
theorem witness_OutOfRangeAddressFaultsNextStep :
    ((withReg 2 1 (startAt 0xFFD 0xFFF 0xF21E)).canFetch ∧
      decodeWord (withReg 2 1 (startAt 0xFFD 0xFFF 0xF21E)).wordAtPc = .insn (.addI 0x2) ∧
      0xFFF < (startAt 0xFFD 0xFFF 0xF21E).i.toNat + ((withReg 2 1 (startAt 0xFFD 0xFFF 0xF21E)).reg 0x2).toNat) ∧
    ((withReg 2 1 (startAt 0xFFE 0xFFF 0xF21E)).canFetch ∧
      decodeWord (withReg 2 1 (startAt 0xFFE 0xFFF 0xF21E)).wordAtPc = .insn (.addI 0x2) ∧
      0xFFF < (startAt 0xFFE 0xFFF 0xF21E).i.toNat + ((withReg 2 1 (startAt 0xFFE 0xFFF 0xF21E)).reg 0x2).toNat) ∧
    ((startAt 0x200 0xFFF 0xF055).canFetch ∧ decodeWord (startAt 0x200 0xFFF 0xF055).wordAtPc = .insn (.stRegs 0x0) ∧
      (startAt 0x200 0xFFF 0xF055).i.toNat + (0x0 : RegIdx).toNat = 0xFFF) ∧
    ((startAt 0xFFE 0xFF0 0xFF65).canFetch ∧ decodeWord (startAt 0xFFE 0xFF0 0xFF65).wordAtPc = .insn (.ldRegs 0xF) ∧
      (startAt 0xFFE 0xFF0 0xFF65).i.toNat + (0xF : RegIdx).toNat = 0xFFF) := by
  unfold State.canFetch; decide

/-- A sequential advance from `0xFFE`: an instruction, a satisfied block-until-key, an unknown word. -/
theorem witness_OutOfRangePcFaultsNextStep_advance :
    ((startAt 0xFFE 0 0x6007).canFetch ∧ (startAt 0xFFE 0 0x6007).pc = 0xFFE ∧
      step (startAt 0xFFE 0 0x6007) = .next (after (startAt 0xFFE 0 0x6007)) ∧
      (after (startAt 0xFFE 0 0x6007)).halted = false ∧
      decodeWord (startAt 0xFFE 0 0x6007).wordAtPc = .insn (.ldImm 0x0 0x07) ∧ ¬ mayMovePc (.ldImm 0x0 0x07)) ∧
    ({ startAt 0xFFE 0 0xF30A with keys := 1 }.canFetch ∧
      decodeWord { startAt 0xFFE 0 0xF30A with keys := 1 }.wordAtPc = .insn (.ldVxK 0x3) ∧
      { startAt 0xFFE 0 0xF30A with keys := 1 }.keys ≠ 0 ∧
      (after { startAt 0xFFE 0 0xF30A with keys := 1 }).halted = false) ∧
    ((startAt 0xFFE 0 0xFFFF).canFetch ∧ decodeWord (startAt 0xFFE 0 0xFFFF).wordAtPc = .unknown 0xFFFF ∧
      (after (startAt 0xFFE 0 0xFFFF)).halted = false) := by
  refine ⟨⟨?_, by decide, rfl, by decide, by decide, id⟩, ⟨?_, by decide, by decide, by decide⟩, ?_, by decide, by decide⟩
  all_goals unfold State.canFetch; decide

/-- Each skip at the last `pc`, a jump-with-offset to `0x10FE` and a return to `0x1000`. -/
theorem witness_OutOfRangePcFaultsNextStep_targets :
    (∀ w ∈ [0x3000, 0x4000, 0x5010, 0x9010, 0xE09E, 0xE0A1], (startAt 0xFFE 0 w).canFetch) ∧
    [0x3000, 0x4000, 0x5010, 0x9010, 0xE09E, 0xE0A1].map (fun w => decodeWord (startAt 0xFFE 0 w).wordAtPc) =
      [.insn (.seImm 0x0 0x00), .insn (.sneImm 0x0 0x00), .insn (.seReg 0x0 0x1), .insn (.sneReg 0x0 0x1),
        .insn (.skp 0x0), .insn (.sknp 0x0)] ∧
    ((withReg 0xF 0xFF (start 0xBFFF)).canFetch ∧
      decodeWord (withReg 0xF 0xFF (start 0xBFFF)).wordAtPc = .insn (.jpVx 0xF 0xFFF)) ∧
    ({ start 0x00EE with sp := 1, stack := State.reset.stack.set 0 0x1000 }.canFetch ∧
      decodeWord { start 0x00EE with sp := 1, stack := State.reset.stack.set 0 0x1000 }.wordAtPc = .insn .ret ∧
      { start 0x00EE with sp := 1, stack := State.reset.stack.set 0 0x1000 }.sp.toNat - 1 < 16 ∧
      { start 0x00EE with sp := 1, stack := State.reset.stack.set 0 0x1000 }.sp ≠ 0) := by
  unfold State.canFetch; decide

end Sys2Proof.Tests
end

