-- ==== Sys2Proof/Proofs/Reset.lean ====
section
/-! Reset (10_state R36, 20_memory R76): what an accepted `Reset(image)` answers, and the `pc` and memory it leaves. -/

namespace Sys2Proof.Machine

theorem Block.apply_reset_of_fits {image : List Byte} (b : Block) (h : image.length ≤ 3584) :
    Block.apply (.reset image) b = .done (.on (resetState image b.draws)) .quiet := by
  have hfits : imageFits image = true := decide_eq_true h
  simp only [Block.apply, hfits, if_true]

@[simp] theorem resetState_pc (image : List Byte) (d : Nat) : (resetState image d).pc = 0x200 := rfl

/-- 20_memory R76: the image lies from `0x200` on, and every other address has its reset contents. -/
theorem resetState_mem_read {image : List Byte} (d : Nat) (h : image.length ≤ 3584) (a : Nat) :
    (resetState image d).mem.read a =
      if 0x200 ≤ a ∧ a < 0x200 + image.length then image.getD (a - 0x200) 0 else Memory.initial a :=
  Memory.read_imageCells 0x200 image (by simp only [Config.memSize]; omega) a

theorem resetState_mem_read_vector {v : Byte} {rest : List Byte} (d : Nat) (h : (v :: rest).length ≤ 3584) :
    (resetState (v :: rest) d).mem.read 0x200 = v := by
  have hin : 0x200 ≤ 0x200 ∧ 0x200 < 0x200 + (v :: rest).length := by simp only [List.length_cons]; omega
  rw [resetState_mem_read d h, if_pos hin, Nat.sub_self, List.getD_cons_zero]

/-- Settles O56: the state an accepted reset leaves has `pc` at the vector, and the image's cells begin there. -/
theorem resetStartsAtTheVector : Obligations.ResetStartsAtTheVector := by
  refine ⟨rfl, fun image b hlen => ?_⟩
  refine ⟨resetState image b.draws, Block.apply_reset_of_fits b hlen, resetState_pc image b.draws, ?_⟩
  rintro v rest rfl
  exact resetState_mem_read_vector b.draws hlen

end Sys2Proof.Machine
end

