-- ==== Sys2Proof/Proofs/MemoryAccess.lean ====
section
/-! Memory accesses (20_memory R63, R64): what an in-bounds write leaves readable at its own address and at the others. -/

namespace Sys2Proof.Machine

theorem Memory.read_write_same {m : Memory} (h : m.wf = true) (a : Nat) (v : Byte) : (m.write a v).read a = v := by
  rw [Memory.read_write h, if_pos rfl]

theorem Memory.read_write_of_ne {m : Memory} (h : m.wf = true) {a b : Nat} (v : Byte) (hb : b ≠ a) :
    (m.write a v).read b = m.read b := by
  rw [Memory.read_write h, if_neg hb]

/-- Settles O11: the bounds decide which access succeeds, and read after write over a canonical memory says that a
write changes its own byte alone. -/
theorem memoryAccessIsBoundsChecked : Obligations.MemoryAccessIsBoundsChecked := by
  intro s addr v hwf
  refine ⟨fun hin => ?inside, fun hout => ?outside⟩
  case inside =>
    have hsame := Memory.read_write_same hwf addr.toNat v
    have hframe := fun a (ha : a ≠ addr.toNat) => Memory.read_write_of_ne hwf v ha
    exact ⟨memRead_ok hin, s.mem.write addr.toNat v, memWrite_ok v hin, hsame, hframe⟩
  case outside =>
    exact ⟨memRead_error hout, memWrite_error v hout⟩

end Sys2Proof.Machine
end

