-- ==== Sys2Proof/Proofs/Flow.lean ====
section
/-! Jumps and skips (40_flow R126, R128 to R132): what the dispatch of each comes to, as a new `pc` in the old state. -/

namespace Sys2Proof.Machine

/-! Jumps. -/

theorem exec_jp (nnn : Addr12) (s : State) : exec (.jp nnn) s = .next (s.setPc (addressOperand nnn)) := rfl

theorem exec_jpVx (x : RegIdx) (nnn : Addr12) (s : State) :
    exec (.jpVx x nnn) s = .next (s.setPc (s.regWord x + addressOperand nnn)) := rfl

/-- 40_flow R132: the 16-bit add cannot wrap, as a register holds 8 bits and an address operand 12. -/
theorem State.toNat_regWord_add_addressOperand (s : State) (x : RegIdx) (nnn : Addr12) :
    (s.regWord x + addressOperand nnn).toNat = (s.reg x).toNat + nnn.toNat := by
  have hreg := (s.reg x).isLt
  have haddr := nnn.isLt
  rw [BitVec.toNat_add_of_lt (by rw [s.toNat_regWord, toNat_addressOperand]; omega), s.toNat_regWord,
    toNat_addressOperand]

theorem wf_jpVx_iff {x : RegIdx} {nnn : Addr12} : (Instr.jpVx x nnn).wf = true ↔ x = jumpOffsetReg nnn :=
  beq_iff_eq

/-- Settles O30: the target is the address operand, whose value is `NNN`. -/
theorem jumpSetsPc : Obligations.JumpSetsPc := fun s nnn =>
  ⟨s.setPc (addressOperand nnn), exec_jp nnn s, rfl, toNat_addressOperand nnn⟩

/-- Settles O33: well-formedness names the register, and the sum stays below 2^16. -/
theorem jumpWithOffsetAddsRegister : Obligations.JumpWithOffsetAddsRegister := by
  intro s x nnn hwf
  have hx : x.toNat = nnn.toNat / 256 := by rw [wf_jpVx_iff.mp hwf, toNat_jumpOffsetReg]
  exact ⟨hx, s.setPc (s.regWord x + addressOperand nnn), exec_jpVx x nnn s, rfl,
    s.toNat_regWord_add_addressOperand x nnn⟩

/-! Skips. -/

/-- 40_flow section 3: a skip whose test decides `p` adds 2 to `pc` exactly when `p` holds. -/
theorem State.skipIf_eq_ite (s : State) {c : Bool} {p : Prop} [Decidable p] (h : c = true ↔ p) :
    s.skipIf c = if p then { s with pc := s.pc + 2 } else s := by
  by_cases hp : p
  · rw [if_pos hp, h.mpr hp]; rfl
  · rw [if_neg hp, Bool.eq_false_iff.mpr (mt h.mp hp)]; rfl

theorem exec_seImm (x : RegIdx) (nn : Byte) (s : State) :
    exec (.seImm x nn) s = .next (s.skipIf (s.reg x == nn)) := rfl

theorem exec_sneImm (x : RegIdx) (nn : Byte) (s : State) :
    exec (.sneImm x nn) s = .next (s.skipIf (s.reg x != nn)) := rfl

theorem exec_seReg (x y : RegIdx) (s : State) :
    exec (.seReg x y) s = .next (s.skipIf (s.reg x == s.reg y)) := rfl

theorem exec_sneReg (x y : RegIdx) (s : State) :
    exec (.sneReg x y) s = .next (s.skipIf (s.reg x != s.reg y)) := rfl

/-- Settles O31: the four skips test `==` or `!=`, which decide equality and its negation. -/
theorem skipsCompareRegisters : Obligations.SkipsCompareRegisters := by
  intro s x y nn
  refine ⟨?seImm, ?sneImm, ?seReg, ?sneReg⟩
  case seImm => rw [exec_seImm, s.skipIf_eq_ite beq_iff_eq]
  case sneImm => rw [exec_sneImm, s.skipIf_eq_ite bne_iff_ne]
  case seReg => rw [exec_seReg, s.skipIf_eq_ite beq_iff_eq]
  case sneReg => rw [exec_sneReg, s.skipIf_eq_ite bne_iff_ne]

end Sys2Proof.Machine
end

