-- ==== Sys2Proof/Proofs/AluImmediate.lean ====
section
/-! Immediate forms (41_alu R140, R141): what the dispatch of each comes to, as one register write in the old state. -/

namespace Sys2Proof.Machine

theorem exec_ldImm (x : RegIdx) (nn : Byte) (s : State) : exec (.ldImm x nn) s = .next (s.setReg x nn) := rfl

theorem exec_addImm (x : RegIdx) (nn : Byte) (s : State) :
    exec (.addImm x nn) s = .next (s.setReg x (s.reg x + nn)) := rfl

@[simp] theorem State.reg_setReg_same (s : State) (k : RegIdx) (v : Byte) : (s.setReg k v).reg k = v := by
  rw [State.reg_setReg, if_pos rfl]

theorem State.reg_setReg_of_ne (s : State) {k j : RegIdx} (v : Byte) (h : j ≠ k) : (s.setReg k v).reg j = s.reg j := by
  rw [State.reg_setReg, if_neg h]

/-- Settles O34: each form is one register write, and the 8-bit sum written is the sum modulo 256. -/
theorem immediateFormsWriteOneRegister : Obligations.ImmediateFormsWriteOneRegister := by
  intro s x nn
  refine ⟨?ldImm, ?addImm⟩
  case ldImm =>
    exact ⟨s.setReg x nn, exec_ldImm x nn s, s.setReg_eq x nn, s.reg_setReg x nn⟩
  case addImm =>
    have hsum : ((s.setReg x (s.reg x + nn)).reg x).toNat = ((s.reg x).toNat + nn.toNat) % 256 := by
      rw [State.reg_setReg_same, BitVec.toNat_add]
    exact ⟨s.setReg x (s.reg x + nn), exec_addImm x nn s, s.setReg_eq x _, hsum, fun _ hk => s.reg_setReg_of_ne _ hk⟩

end Sys2Proof.Machine
end

