-- ==== Sys2Proof/Proofs/AddressMemory.lean ====
section
/-! Load-address and add-to-address (42_address_memory R160, R161): what the dispatch of each comes to, as a new `I` in
the old state. -/

namespace Sys2Proof.Machine

theorem exec_ldI (nnn : Addr12) (s : State) : exec (.ldI nnn) s = .next (s.setI (addressOperand nnn)) := rfl

theorem exec_addI (x : RegIdx) (s : State) : exec (.addI x) s = .next (s.setI (s.i + s.regWord x)) := rfl

theorem State.setI_eq (s : State) (v : Word) : s.setI v = { s with i := (s.setI v).i } := rfl

/-- Settles O40: each form is one write of `I`, and the word written is `NNN` or the sum modulo 2^16. -/
theorem addressInstructionsSetI : Obligations.AddressInstructionsSetI := by
  intro s x nnn
  refine ⟨?ldI, ?addI⟩
  case ldI =>
    have haddr : (s.setI (addressOperand nnn)).i.toNat = nnn.toNat := by
      rw [State.setI_i, toNat_addressOperand]
    exact ⟨s.setI (addressOperand nnn), exec_ldI nnn s, s.setI_eq _, haddr⟩
  case addI =>
    have hsum : (s.setI (s.i + s.regWord x)).i.toNat = (s.i.toNat + (s.reg x).toNat) % 65536 := by
      rw [State.setI_i, BitVec.toNat_add, s.toNat_regWord]
    exact ⟨s.setI (s.i + s.regWord x), exec_addI x s, s.setI_eq _, hsum⟩

end Sys2Proof.Machine
end

