-- ==== Sys2Proof/Proofs/Display.lean ====
section
/-! Clear-screen (43_display R180): what its dispatch comes to, and what clearing and marking the framebuffer change. -/

namespace Sys2Proof.Machine

theorem exec_cls (s : State) : exec .cls s = .next s.clearFb.markDirty := rfl

theorem State.markDirty_clearFb_eq (s : State) :
    s.clearFb.markDirty = { s with fb := s.clearFb.markDirty.fb, dirty := true } := rfl

theorem State.pixel_markDirty_clearFb (s : State) (r c : Nat) : s.clearFb.markDirty.pixel r c = false := by
  rw [State.pixel_markDirty, State.pixel_clearFb]

/-- Settles O22: the framebuffer and `dirty` alone are written, and a cleared framebuffer reads 0 at every pixel. -/
theorem clearScreenZeroesEveryPixel : Obligations.ClearScreenZeroesEveryPixel := fun s =>
  ⟨s.clearFb.markDirty, exec_cls s, s.markDirty_clearFb_eq, fun r c _ _ => s.pixel_markDirty_clearFb r c⟩

end Sys2Proof.Machine
end

