-- ==== Sys2Proof/Proofs/KeysTimers.lean ====
section
/-! The key skips and the timer moves (44_keys_timers R190, R191, R193 to R195): what the dispatch of each comes to. -/

namespace Sys2Proof.Machine

/-! Key skips. -/

theorem exec_skp (x : RegIdx) (s : State) : exec (.skp x) s = .next (s.skipIf (s.key (s.keyOperand x))) := rfl

theorem exec_sknp (x : RegIdx) (s : State) : exec (.sknp x) s = .next (s.skipIf (!s.key (s.keyOperand x))) := rfl

/-- 44_keys_timers R190, R191: the key tested is the bit of the latch at the low nibble of the register. -/
theorem State.key_keyOperand (s : State) (x : RegIdx) :
    s.key (s.keyOperand x) = s.keys.getLsbD ((s.reg x).toNat % 16) := by
  rw [State.key, s.keyOperand_eq]

/-- Settles O32: the two skips test the same bit of the latch, the second negated. -/
theorem keySkipsTestTheLatch : Obligations.KeySkipsTestTheLatch := by
  intro s x
  refine ⟨?skp, ?sknp⟩
  case skp => rw [exec_skp, s.key_keyOperand, s.skipIf_eq_ite Iff.rfl]
  case sknp => rw [exec_sknp, s.key_keyOperand, s.skipIf_eq_ite (Bool.not_eq_true' _).to_iff]

/-! Timer moves. -/

theorem exec_ldVxDt (x : RegIdx) (s : State) : exec (.ldVxDt x) s = .next (s.setReg x s.dt) := rfl

theorem exec_ldDtVx (x : RegIdx) (s : State) : exec (.ldDtVx x) s = .next (s.setDt (s.reg x)) := rfl

theorem exec_ldStVx (x : RegIdx) (s : State) : exec (.ldStVx x) s = .next (s.setSt (s.reg x)) := rfl

theorem State.setDt_eq (s : State) (v : Byte) : s.setDt v = { s with dt := v } := rfl

theorem State.setSt_eq (s : State) (v : Byte) : s.setSt v = { s with st := v } := rfl

/-- Settles O49: the read is one register write, and each set is one write of its timer. -/
theorem timerMovesCopyOneByte : Obligations.TimerMovesCopyOneByte := by
  intro s x
  refine ⟨?ldVxDt, ?ldDtVx, ?ldStVx⟩
  case ldVxDt => exact ⟨s.setReg x s.dt, exec_ldVxDt x s, s.setReg_eq x s.dt, s.reg_setReg x s.dt⟩
  case ldDtVx => rw [exec_ldDtVx, s.setDt_eq]
  case ldStVx => rw [exec_ldStVx, s.setSt_eq]

end Sys2Proof.Machine
end

