-- ==== Sys2Proof/Proofs/HostEvents.lean ====
section
/-! Host events (60_exceptions R207, R209 to R211): what the block answers to each, and what each does to its state. -/

namespace Sys2Proof.Machine

theorem Block.apply_tick (s : State) : Block.apply .tick (.on s) = .done (.on (tick s)) .quiet := rfl

theorem Block.apply_setKeys (m : BitVec 16) (s : State) :
    Block.apply (.setKeys m) (.on s) = .done (.on (setKeys m s)) .quiet := rfl

theorem Block.apply_clearDirty (s : State) :
    Block.apply .clearDirty (.on s) = .done (.on (clearDirty s)) .quiet := rfl

theorem Block.apply_fbRead (s : State) : Block.apply .fbRead (.on s) = .done (.on s) (.snapshot (fbRead s)) := rfl

/-! The timer tick (60_exceptions R207). -/

/-- 60_exceptions R207: the floor at 0 is that of subtraction on the naturals. -/
theorem toNat_countDown (v : Byte) : (countDown v).toNat = v.toNat - 1 := by
  by_cases hv : v = 0
  · rw [countDown, if_pos hv, hv]; rfl
  · have hone : (1 : Byte) ≤ v := BitVec.le_def.mpr (BitVec.toNat_pos_of_ne_zero hv)
    rw [countDown, if_neg hv, BitVec.toNat_sub_of_le hone]; rfl

theorem toNat_tick_dt (s : State) : (tick s).dt.toNat = s.dt.toNat - 1 := toNat_countDown s.dt

theorem toNat_tick_st (s : State) : (tick s).st.toNat = s.st.toNat - 1 := toNat_countDown s.st

theorem tick_eq (s : State) : tick s = { s with dt := (tick s).dt, st := (tick s).st, tone := (tick s).tone } := rfl

/-- 60_exceptions R207: the test is on the value of `ST` before the decrement. -/
theorem tick_tone_iff (s : State) : (tick s).tone = true ↔ 0 < s.st.toNat := by
  have hzero : s.st.toNat ≠ 0 ↔ s.st ≠ 0 := BitVec.toNat_ne_iff_ne (y := 0)
  rw [Nat.pos_iff_ne_zero, hzero]
  exact bne_iff_ne

/-- Settles O50: each timer counts down on the naturals, and the tone is the test of `ST` before. -/
theorem tickCountsDown : Obligations.TickCountsDown := fun s =>
  ⟨Block.apply_tick s, tick_eq s, toNat_tick_dt s, toNat_tick_st s, tick_tone_iff s⟩

/-! The key latch (60_exceptions R209). -/

theorem setKeys_eq (m : BitVec 16) (s : State) : setKeys m s = { s with keys := m } := rfl

theorem keyDown_eq (c : Nibble) (s : State) : keyDown c s = { s with keys := (keyDown c s).keys } := rfl

theorem keyUp_eq (c : Nibble) (s : State) : keyUp c s = { s with keys := (keyUp c s).keys } := rfl

/-- The mask of a key code has the bit of that code and no other. -/
theorem getLsbD_keyMask (c : Nibble) (k : Nat) : ((1 : BitVec 16) <<< c.toNat).getLsbD k = decide (k = c.toNat) := by
  have hpow : (1 : BitVec 16) <<< c.toNat = BitVec.twoPow 16 c.toNat := (BitVec.twoPow_eq 16 c.toNat).symm
  rw [hpow, BitVec.getLsbD_twoPow, decide_eq_true c.isLt, Bool.true_and]
  exact decide_eq_decide.mpr eq_comm

theorem key_keyDown (c : Nibble) (s : State) (k : Nat) :
    (keyDown c s).key k = (decide (k = c.toNat) || s.key k) := by
  rw [← getLsbD_keyMask, Bool.or_comm]
  exact BitVec.getLsbD_or

theorem key_keyUp (c : Nibble) (s : State) {k : Nat} (hk : k < 16) :
    (keyUp c s).key k = (decide (k ≠ c.toNat) && s.key k) := by
  have hmask : (~~~((1 : BitVec 16) <<< c.toNat)).getLsbD k = decide (k ≠ c.toNat) := by
    rw [BitVec.getLsbD_not, decide_eq_true hk, Bool.true_and, getLsbD_keyMask, decide_not]
  rw [← hmask, Bool.and_comm]
  exact BitVec.getLsbD_and

/-- Settles O52: every key event is one write of the latch, whose bits come from the mask of the key code. -/
theorem keyEventsWriteTheLatch : Obligations.KeyEventsWriteTheLatch := by
  intro s m c
  have hset : Block.apply (.setKeys m) (.on s) = .done (.on { s with keys := m }) .quiet := by
    rw [Block.apply_setKeys, setKeys_eq]
  exact ⟨hset, keyDown_eq c s, keyUp_eq c s, fun k hk => ⟨key_keyDown c s k, key_keyUp c s hk⟩⟩

/-! The dirty flag and the framebuffer (60_exceptions R210, R211). -/

theorem clearDirty_eq (s : State) : clearDirty s = { s with dirty := false } := rfl

@[simp] theorem fbRead_dirty (s : State) : (fbRead s).dirty = s.dirty := rfl

/-- The rows one after the other are the flattened vector of rows, so the library's index law for it applies. -/
theorem fbRead_pixels (s : State) : (fbRead s).pixels = s.fb.flatten.toList := by
  have hrows : s.fb.flatten.toList = ((s.fb.toArray.map Vector.toArray).toList.map Array.toList).flatten :=
    Array.toList_flatten
  rw [hrows, Array.toList_map, List.map_map]
  exact List.flatMap_def

theorem length_fbRead_pixels (s : State) : (fbRead s).pixels.length = 2048 := by
  rw [fbRead_pixels, Vector.length_toList]

theorem getElem?_fbRead_pixels (s : State) {r c : Nat} (hr : r < 32) (hc : c < 64) :
    (fbRead s).pixels[r * 64 + c]? = some (s.pixel r c) := by
  have hin : r * 64 + c < 32 * 64 := by omega
  have hrow : (r * 64 + c) / 64 = r % 32 := by omega
  have hcol : (r * 64 + c) % 64 = c % 64 := by omega
  rw [fbRead_pixels, Vector.getElem?_toList, Vector.getElem?_flatten, dif_pos hin]
  simp only [hrow, hcol, State.pixel]

/-- Settles O53: the snapshot of `FbRead` is the flattened framebuffer, whose row and column of an index are its
quotient and remainder by 64. -/
theorem framebufferIsReadRowMajor : Obligations.FramebufferIsReadRowMajor := by
  intro s
  have hclear : Block.apply .clearDirty (.on s) = .done (.on { s with dirty := false }) .quiet := by
    rw [Block.apply_clearDirty, clearDirty_eq]
  exact ⟨hclear, fbRead s, Block.apply_fbRead s, fbRead_dirty s, length_fbRead_pixels s,
    fun _ _ => getElem?_fbRead_pixels s⟩

end Sys2Proof.Machine
end

