-- ==== Sys2Proof/Proofs/Decoder.lean ====
section
/-! The decoder and the encoder (30_encoding R91 to R99). A word selects at most one row of the opcode map, so a row
that it selects is what it decodes to; and a word is the packing of its own fields, so a row's digits and fields are the
whole word. -/

namespace Sys2Proof

/-! The rows are disjoint (30_encoding R94). -/

/-- The fixed digits of the two rows differ on bits that both masks fix. -/
def Row.conflicts (r r' : Row) : Bool := r.fixed &&& r'.mask != r'.fixed &&& r.mask

theorem Row.selects_iff (r : Row) (w : Word) : r.selects w = true ↔ w &&& r.mask = r.fixed := beq_iff_eq

theorem Row.disjoint_of_conflicts {r r' : Row} (h : r.conflicts r' = true) (w : Word) :
    ¬(r.selects w = true ∧ r'.selects w = true) := by
  rintro ⟨hr, hr'⟩
  rw [Row.selects_iff] at hr hr'
  have hsame : r.fixed &&& r'.mask = r'.fixed &&& r.mask := by
    rw [← hr, ← hr', BitVec.and_assoc, BitVec.and_assoc, BitVec.and_comm r.mask]
  exact bne_iff_ne.mp h hsame

theorem opcodeMap_conflicts : opcodeMap.Pairwise fun r r' => r.conflicts r' = true := by decide

/-- Settles O8: any two rows conflict on a bit that both fix. -/
theorem opcodeRowsAreDisjoint : Obligations.OpcodeRowsAreDisjoint :=
  ⟨rfl, opcodeMap_conflicts.imp Row.disjoint_of_conflicts⟩

/-- Among rows of which a word selects at most one, the search finds the one it selects. -/
theorem find?_selects {rows : List Row} {w : Word}
    (hdisj : rows.Pairwise fun r r' => ¬(r.selects w = true ∧ r'.selects w = true)) {r : Row} (hr : r ∈ rows)
    (hw : r.selects w = true) : rows.find? (fun q => q.selects w) = some r := by
  induction rows with
  | nil => cases hr
  | cons q rows ih =>
    rw [List.pairwise_cons] at hdisj
    obtain ⟨hq, hrows⟩ := hdisj
    rw [List.find?_cons]
    rcases List.mem_cons.mp hr with rfl | hmem
    · rw [hw]
    · have hqw : q.selects w = false := Bool.eq_false_iff.mpr fun hqw => hq r hmem ⟨hqw, hw⟩
      rw [hqw, ih hrows hmem]

/-- 30_encoding R94: a word decodes to the instruction of the row it selects, wherever the row stands. -/
theorem decodeWord_of_selects {w : Word} {r : Row} (hr : r ∈ opcodeMap) (hw : r.selects w = true) :
    decodeWord w = .insn (r.build w) := by
  have hdisj := opcodeRowsAreDisjoint.2.imp fun h => h w
  rw [decodeWord, find?_selects hdisj hr hw]

theorem decodeWord_insn {w : Word} {i : Instr} (h : decodeWord w = .insn i) :
    ∃ r ∈ opcodeMap, r.selects w = true ∧ r.build w = i := by
  unfold decodeWord at h
  split at h
  · next r hfind =>
    exact ⟨r, List.mem_of_find?_eq_some hfind, List.find?_some (p := (Row.selects · w)) hfind, Decoded.insn.inj h⟩
  · cases h

theorem decodeWord_unknown_iff {w u : Word} :
    decodeWord w = .unknown u ↔ u = w ∧ ∀ r ∈ opcodeMap, ¬ r.selects w = true := by
  constructor
  · intro h
    refine ⟨Machine.decodeWord_unknown h, fun r hr hw => ?_⟩
    rw [decodeWord_of_selects hr hw] at h
    cases h
  · rintro ⟨rfl, hnone⟩
    rw [decodeWord, List.find?_eq_none.mpr hnone]

/-! Decoding an encoded instruction. -/

theorem ctorIdx_lt (i : Instr) : i.ctorIdx < opcodeMap.length := by
  cases i <;> exact Nat.le_of_ble_eq_true rfl

/-- The row of an instruction: the constructors of `Instr` stand in the order of the opcode map. -/
def Instr.row (i : Instr) : Row := opcodeMap[i.ctorIdx]'(ctorIdx_lt i)

theorem Instr.row_mem (i : Instr) : i.row ∈ opcodeMap := List.getElem_mem _

theorem Instr.row_selects_encode (i : Instr) : i.row.selects (encode i) = true := by
  rw [Row.selects_iff]
  cases i with
  | cls | ret => rfl
  | jp | call | ldI | jpVx => exact packA_and_family ..
  | seImm | sneImm | ldImm | addImm | rnd => exact packXB_and_family ..
  | drw => exact packXY_and_family ..
  | seReg | ldReg | or | and | xor | addReg | sub | shr | subn | shl | sneReg => exact packXY_and_subOpcode ..
  | skp | sknp | ldVxDt | ldVxK | ldDtVx | ldStVx | addI | ldF | ldB | stRegs | ldRegs => exact packXB_and_subOpcode ..

theorem Instr.row_build_encode {i : Instr} (h : i.wf = true) : i.row.build (encode i) = i := by
  cases i with
  | cls | ret => rfl
  | jp | call | ldI => exact congrArg _ (fieldNNN_packA ..)
  | jpVx x nnn =>
    have hx : fieldX (packA 0xB nnn) = x := (fieldX_packA ..).trans (Machine.wf_jpVx_iff.mp h).symm
    exact congrArg₂ _ hx (fieldNNN_packA ..)
  | seImm | sneImm | ldImm | addImm | rnd => exact congrArg₂ _ (fieldX_packXB ..) (fieldNN_packXB ..)
  | drw x y n =>
    exact congr (congrArg₂ Instr.drw (fieldX_packXY ..) (fieldY_packXY ..)) (fieldN_packXY 0xD x y n)
  | seReg | ldReg | or | and | xor | addReg | sub | shr | subn | shl | sneReg =>
    exact congrArg₂ _ (fieldX_packXY ..) (fieldY_packXY ..)
  | skp | sknp | ldVxDt | ldVxK | ldDtVx | ldStVx | addI | ldF | ldB | stRegs | ldRegs =>
    exact congrArg _ (fieldX_packXB ..)

/-- Settles O6: the word selects the instruction's own row, which builds the instruction from the fields packed. -/
theorem decodeOfEncodeIsTheInstruction : Obligations.DecodeOfEncodeIsTheInstruction := by
  intro i hwf
  rw [decodeWord_of_selects i.row_mem i.row_selects_encode, Instr.row_build_encode hwf]

/-! The family of a word, its digit `OP` (30_encoding R91). -/

theorem toNat_fieldOp (w : Word) : (fieldOp w).toNat = w.toNat / 4096 := by
  have := w.isLt
  simp only [fieldOp, BitVec.extractLsb'_toNat, Nat.shiftRight_eq_div_pow]
  omega

@[simp] theorem fieldOp_packA (op : Nibble) (nnn : Addr12) : fieldOp (packA op nnn) = op := by
  have := nnn.isLt
  exact BitVec.eq_of_toNat_eq (by rw [toNat_fieldOp, toNat_packA]; omega)

@[simp] theorem fieldOp_packXB (op : Nibble) (x : RegIdx) (nn : Byte) : fieldOp (packXB op x nn) = op := by
  rw [packXB_eq_packA, fieldOp_packA]

@[simp] theorem fieldOp_packXY (op : Nibble) (x y : RegIdx) (n : Nibble) : fieldOp (packXY op x y n) = op := by
  rw [packXY_eq_packXB, fieldOp_packXB]

/-! A word is the packing of its fields (30_encoding R91, R93). -/

theorem packA_fields (w : Word) : packA (fieldOp w) (fieldNNN w) = w := by
  have := w.isLt
  exact BitVec.eq_of_toNat_eq (by rw [toNat_packA, toNat_fieldOp, toNat_fieldNNN]; omega)

theorem packXB_fields (w : Word) : packXB (fieldOp w) (fieldX w) (fieldNN w) = w := by
  have := w.isLt
  exact BitVec.eq_of_toNat_eq (by rw [toNat_packXB, toNat_fieldOp, toNat_fieldX, toNat_fieldNN]; omega)

theorem packXY_fields (w : Word) : packXY (fieldOp w) (fieldX w) (fieldY w) (fieldN w) = w := by
  have := w.isLt
  exact BitVec.eq_of_toNat_eq (by rw [toNat_packXY, toNat_fieldOp, toNat_fieldX, toNat_fieldY, toNat_fieldN]; omega)

theorem fieldX_eq_jumpOffsetReg (w : Word) : fieldX w = jumpOffsetReg (fieldNNN w) := by
  conv_lhs => rw [← packA_fields w, fieldX_packA]

/-! What the three masks of the opcode map leave of a word, in terms of its fields (30_encoding R94). -/

theorem and_family_iff (w : Word) (op : Nibble) : w &&& 0xF000 = packA op 0 ↔ fieldOp w = op := by
  conv_lhs => rw [← packA_fields w, packA_and_family]
  exact ⟨fun h => by simpa using congrArg fieldOp h, fun h => by rw [h]⟩

theorem and_subOpcodeByte_iff (w : Word) (op : Nibble) (nn : Byte) :
    w &&& 0xF0FF = packXB op 0 nn ↔ fieldOp w = op ∧ fieldNN w = nn := by
  conv_lhs => rw [← packXB_fields w, packXB_and_subOpcode]
  exact ⟨fun h => ⟨by simpa using congrArg fieldOp h, by simpa using congrArg fieldNN h⟩, fun ⟨h, h'⟩ => by rw [h, h']⟩

theorem and_subOpcodeNibble_iff (w : Word) (op n : Nibble) :
    w &&& 0xF00F = packXY op 0 0 n ↔ fieldOp w = op ∧ fieldN w = n := by
  conv_lhs => rw [← packXY_fields w, packXY_and_subOpcode]
  exact ⟨fun h => ⟨by simpa using congrArg fieldOp h, by simpa using congrArg fieldN h⟩, fun ⟨h, h'⟩ => by rw [h, h']⟩

/-! Encoding a decoded word: the fixed digits and the fields of a word that selects a row are the whole word. -/

theorem packA_of_selected {w : Word} {op : Nibble} (h : w &&& 0xF000 = packA op 0) : packA op (fieldNNN w) = w := by
  rw [← (and_family_iff w op).mp h, packA_fields]

theorem packXB_of_selected {w : Word} {op : Nibble} (h : w &&& 0xF000 = packA op 0) :
    packXB op (fieldX w) (fieldNN w) = w := by
  rw [← (and_family_iff w op).mp h, packXB_fields]

theorem packXYN_of_selected {w : Word} {op : Nibble} (h : w &&& 0xF000 = packA op 0) :
    packXY op (fieldX w) (fieldY w) (fieldN w) = w := by
  rw [← (and_family_iff w op).mp h, packXY_fields]

theorem packXS_of_selected {w : Word} {op : Nibble} {nn : Byte} (h : w &&& 0xF0FF = packXB op 0 nn) :
    packXB op (fieldX w) nn = w := by
  obtain ⟨hop, hnn⟩ := (and_subOpcodeByte_iff w op nn).mp h
  rw [← hop, ← hnn, packXB_fields]

theorem packXY_of_selected {w : Word} {op n : Nibble} (h : w &&& 0xF00F = packXY op 0 0 n) :
    packXY op (fieldX w) (fieldY w) n = w := by
  obtain ⟨hop, hn⟩ := (and_subOpcodeNibble_iff w op n).mp h
  rw [← hop, ← hn, packXY_fields]

theorem Instr.encode_row_build (i : Instr) {w : Word} (h : i.row.selects w = true) : encode (i.row.build w) = w := by
  rw [Row.selects_iff] at h
  cases i with
  | cls | ret => exact h.symm.trans BitVec.and_allOnes
  | jp | call | ldI | jpVx => exact packA_of_selected h
  | seImm | sneImm | ldImm | addImm | rnd => exact packXB_of_selected h
  | drw => exact packXYN_of_selected h
  | seReg | ldReg | or | and | xor | addReg | sub | shr | subn | shl | sneReg => exact packXY_of_selected h
  | skp | sknp | ldVxDt | ldVxK | ldDtVx | ldStVx | addI | ldF | ldB | stRegs | ldRegs => exact packXS_of_selected h

theorem Instr.wf_row_build (i : Instr) (w : Word) : (i.row.build w).wf = true := by
  cases i with
  | jpVx => exact Machine.wf_jpVx_iff.mpr (fieldX_eq_jumpOffsetReg w)
  | _ => rfl

/-- One instruction of each constructor. -/
def oneOfEach : List Instr :=
  [.cls, .ret, .jp 0, .call 0, .seImm 0 0, .sneImm 0 0, .seReg 0 0, .ldImm 0 0, .addImm 0 0, .ldReg 0 0, .or 0 0,
    .and 0 0, .xor 0 0, .addReg 0 0, .sub 0 0, .shr 0 0, .subn 0 0, .shl 0 0, .sneReg 0 0, .ldI 0, .jpVx 0 0, .rnd 0 0,
    .drw 0 0 0, .skp 0, .sknp 0, .ldVxDt 0, .ldVxK 0, .ldDtVx 0, .ldStVx 0, .addI 0, .ldF 0, .ldB 0, .stRegs 0,
    .ldRegs 0]

theorem opcodeMap_eq_rows : opcodeMap = oneOfEach.map Instr.row := rfl

/-- 30_encoding R94: a decoded word selects the row of some instruction and is what that row builds. -/
theorem decodeWord_insn_row {w : Word} {i : Instr} (h : decodeWord w = .insn i) :
    ∃ j : Instr, j.row.selects w = true ∧ j.row.build w = i := by
  obtain ⟨r, hr, hw, hbuild⟩ := decodeWord_insn h
  rw [opcodeMap_eq_rows] at hr
  obtain ⟨j, -, rfl⟩ := List.mem_map.mp hr
  exact ⟨j, hw, hbuild⟩

theorem wf_of_decodeWord {w : Word} {i : Instr} (h : decodeWord w = .insn i) : i.wf = true := by
  obtain ⟨j, -, rfl⟩ := decodeWord_insn_row h
  exact j.wf_row_build w

theorem encode_of_decodeWord {w : Word} {i : Instr} (h : decodeWord w = .insn i) : encode i = w := by
  obtain ⟨j, hw, rfl⟩ := decodeWord_insn_row h
  exact j.encode_row_build hw

/-- Settles O7: the decoded instruction packs the word again, and any other with that word decodes to the same. -/
theorem encodeOfDecodeIsTheWord : Obligations.EncodeOfDecodeIsTheWord := by
  intro w i h
  refine ⟨encode_of_decodeWord h, wf_of_decodeWord h, fun j hwf hj => ?_⟩
  have hdec : decodeWord w = .insn j := hj ▸ decodeOfEncodeIsTheInstruction j hwf
  exact Decoded.insn.inj (hdec.symm.trans h)

/-! The unknown words (30_encoding R97): a row is selected by the value of the digits that its mask fixes. -/

theorem and_family_iff_toNat {w f : Word} (hf : f &&& 0xF000 = f) :
    w &&& 0xF000 = f ↔ w.toNat / 4096 = f.toNat / 4096 := by
  have hdigits : f = packA (fieldOp f) 0 := hf.symm.trans ((and_family_iff f _).mpr rfl)
  rw [← toNat_fieldOp, ← toNat_fieldOp, ← BitVec.toNat_eq, ← and_family_iff, ← hdigits]

theorem and_subOpcodeByte_iff_toNat {w f : Word} (hf : f &&& 0xF0FF = f) :
    w &&& 0xF0FF = f ↔ w.toNat / 4096 = f.toNat / 4096 ∧ w.toNat % 256 = f.toNat % 256 := by
  have hdigits : f = packXB (fieldOp f) 0 (fieldNN f) := hf.symm.trans ((and_subOpcodeByte_iff f _ _).mpr ⟨rfl, rfl⟩)
  rw [← toNat_fieldOp, ← toNat_fieldOp, ← toNat_fieldNN, ← toNat_fieldNN, ← BitVec.toNat_eq, ← BitVec.toNat_eq,
    ← and_subOpcodeByte_iff, ← hdigits]

theorem and_subOpcodeNibble_iff_toNat {w f : Word} (hf : f &&& 0xF00F = f) :
    w &&& 0xF00F = f ↔ w.toNat / 4096 = f.toNat / 4096 ∧ w.toNat % 16 = f.toNat % 16 := by
  have hdigits : f = packXY (fieldOp f) 0 0 (fieldN f) := hf.symm.trans ((and_subOpcodeNibble_iff f _ _).mpr ⟨rfl, rfl⟩)
  rw [← toNat_fieldOp, ← toNat_fieldOp, ← toNat_fieldN, ← toNat_fieldN, ← BitVec.toNat_eq, ← BitVec.toNat_eq,
    ← and_subOpcodeNibble_iff, ← hdigits]

theorem and_whole_iff_toNat {w f : Word} : w &&& 0xFFFF = f ↔ w.toNat = f.toNat := by
  have hall : w &&& 0xFFFF = w := BitVec.and_allOnes
  rw [hall, BitVec.toNat_eq]

/-- Settles O9: no row selects the word, which in each family of words is a statement about its low digits. -/
theorem unknownWordsAreTheListedOnes : Obligations.UnknownWordsAreTheListedOnes := by
  intro w u
  rw [decodeWord_unknown_iff]
  refine and_congr_right fun _ => ?_
  have hlt := w.isLt
  have hfamily : w.toNat / 4096 < 16 := by omega
  simp (disch := decide) only [opcodeMap, rowsFlow, rowsAlu, rowsAddress, rowsMisc, List.cons_append, List.nil_append,
    List.forall_mem_cons, Row.selects_iff, and_family_iff_toNat, and_subOpcodeByte_iff_toNat,
    and_subOpcodeNibble_iff_toNat, and_whole_iff_toNat]
  -- one family at a time, the rows of the others drop out
  generalize hop : w.toNat / 4096 = op at *
  interval_cases op <;> simp <;> omega

/-! Sample words. -/

/-- Settles O10: the decoder runs on closed words. -/
theorem sampleWordsDecodeAsGlossed : Obligations.SampleWordsDecodeAsGlossed := by
  unfold Obligations.SampleWordsDecodeAsGlossed
  decide

end Sys2Proof
end

