-- ==== Sys2Proof/Proofs/AluRegisters.lean ====
section
/-! The register forms of the ALU and random-and (41_alu R142 to R153): what the dispatch of each comes to, as one
register write, or as a result and a flag in the old state. -/

namespace Sys2Proof.Machine

/-! Copy and logic. -/

theorem exec_ldReg (x y : RegIdx) (s : State) : exec (.ldReg x y) s = .next (s.setReg x (s.reg y)) := rfl

theorem exec_or (x y : RegIdx) (s : State) : exec (.or x y) s = .next (s.setReg x (s.reg x ||| s.reg y)) := rfl

theorem exec_and (x y : RegIdx) (s : State) : exec (.and x y) s = .next (s.setReg x (s.reg x &&& s.reg y)) := rfl

theorem exec_xor (x y : RegIdx) (s : State) : exec (.xor x y) s = .next (s.setReg x (s.reg x ^^^ s.reg y)) := rfl

/-- Settles O35: each form is one register write. -/
theorem copyAndLogicLeaveTheFlag : Obligations.CopyAndLogicLeaveTheFlag := by
  intro s x y
  refine ⟨?copy, ?or, ?and, ?xor⟩
  case copy => exact ⟨_, exec_ldReg x y s, s.setReg_eq x _, s.reg_setReg x _⟩
  case or => exact ⟨_, exec_or x y s, s.setReg_eq x _, s.reg_setReg x _⟩
  case and => exact ⟨_, exec_and x y s, s.setReg_eq x _, s.reg_setReg x _⟩
  case xor => exact ⟨_, exec_xor x y s, s.setReg_eq x _, s.reg_setReg x _⟩

/-! Result and flag (41_alu R153). -/

theorem exec_addReg (x y : RegIdx) (s : State) :
    exec (.addReg x y) s = .next (s.setResultFlag x (addCarry (s.reg x) (s.reg y))) := rfl

theorem exec_sub (x y : RegIdx) (s : State) :
    exec (.sub x y) s = .next (s.setResultFlag x (subNoBorrow (s.reg x) (s.reg y))) := rfl

theorem exec_shr (x y : RegIdx) (s : State) :
    exec (.shr x y) s = .next (s.setResultFlag x (shiftRightOne (s.reg x))) := rfl

theorem exec_subn (x y : RegIdx) (s : State) :
    exec (.subn x y) s = .next (s.setResultFlag x (subNoBorrow (s.reg y) (s.reg x))) := rfl

theorem exec_shl (x y : RegIdx) (s : State) :
    exec (.shl x y) s = .next (s.setResultFlag x (shiftLeftOne (s.reg x))) := rfl

theorem State.setResultFlag_eq (s : State) (x : RegIdx) (r : Byte × Bool) :
    s.setResultFlag x r = { s with x := (s.setResultFlag x r).x } := rfl

/-- 41_alu R153: the flag is written last, so its test `p` decides the flag register whatever the destination. -/
theorem State.flag_setResultFlag (s : State) (x : RegIdx) {r : Byte × Bool} {p : Prop} [Decidable p]
    (h : r.2 = true ↔ p) : (s.setResultFlag x r).reg 0xF = if p then 1 else 0 := by
  rw [State.reg_setResultFlag, if_pos rfl]
  exact if_congr h rfl rfl

theorem State.toNat_flag_setResultFlag (s : State) (x : RegIdx) {r : Byte × Bool} {p : Prop} [Decidable p]
    (h : r.2 = true ↔ p) : ((s.setResultFlag x r).reg 0xF).toNat = if p then 1 else 0 := by
  rw [s.flag_setResultFlag x h, apply_ite BitVec.toNat]
  rfl

theorem State.dest_setResultFlag (s : State) {x : RegIdx} (r : Byte × Bool) (hx : x ≠ 0xF) :
    (s.setResultFlag x r).reg x = r.1 := by
  rw [State.reg_setResultFlag, if_neg hx, if_pos rfl]

theorem State.reg_setResultFlag_of_ne (s : State) {x k : RegIdx} (r : Byte × Bool) (hx : k ≠ x) (hF : k ≠ 0xF) :
    (s.setResultFlag x r).reg k = s.reg k := by
  rw [State.reg_setResultFlag, if_neg hF, if_neg hx]

/-- Settles O36: the pair written is that of the 9-bit sum. -/
theorem addSetsCarry : Obligations.AddSetsCarry := by
  intro s x y
  obtain ⟨hsum, hcarry⟩ := addCarry_spec (s.reg x) (s.reg y)
  exact ⟨_, exec_addReg x y s, s.setResultFlag_eq x _, s.flag_setResultFlag x hcarry,
    fun hx => by rw [s.dest_setResultFlag _ hx, hsum], fun _ hk hF => s.reg_setResultFlag_of_ne _ hk hF⟩

/-- Settles O37: both subtractions write the same pair, with the operands exchanged. -/
theorem subtractSetsNoBorrow : Obligations.SubtractSetsNoBorrow := by
  intro s x y
  refine ⟨?sub, ?subn⟩
  case sub =>
    obtain ⟨hdiff, hborrow⟩ := subNoBorrow_spec (s.reg x) (s.reg y)
    exact ⟨_, exec_sub x y s, s.setResultFlag_eq x _, s.flag_setResultFlag x hborrow,
      fun hx => by rw [s.dest_setResultFlag _ hx, hdiff], fun _ hk hF => s.reg_setResultFlag_of_ne _ hk hF⟩
  case subn =>
    obtain ⟨hdiff, hborrow⟩ := subNoBorrow_spec (s.reg y) (s.reg x)
    exact ⟨_, exec_subn x y s, s.setResultFlag_eq x _, s.flag_setResultFlag x hborrow,
      fun hx => by rw [s.dest_setResultFlag _ hx, hdiff], fun _ hk hF => s.reg_setResultFlag_of_ne _ hk hF⟩

/-- Settles O38: the bit out is the parity of the register, or its top bit. -/
theorem shiftsMoveOneBit : Obligations.ShiftsMoveOneBit := by
  intro s x y
  refine ⟨?shr, ?shl⟩
  case shr =>
    obtain ⟨hhalf, hbit⟩ := shiftRightOne_spec (s.reg x)
    have hflag : ((s.setResultFlag x (shiftRightOne (s.reg x))).reg 0xF).toNat = (s.reg x).toNat % 2 := by
      rw [s.toNat_flag_setResultFlag x hbit]
      split <;> omega
    exact ⟨_, exec_shr x y s, s.setResultFlag_eq x _, hflag,
      fun hx => by rw [s.dest_setResultFlag _ hx, hhalf], fun _ hk hF => s.reg_setResultFlag_of_ne _ hk hF⟩
  case shl =>
    obtain ⟨hdouble, hbit⟩ := shiftLeftOne_spec (s.reg x)
    have hflag : ((s.setResultFlag x (shiftLeftOne (s.reg x))).reg 0xF).toNat = (s.reg x).toNat / 128 := by
      have hlt := (s.reg x).isLt
      rw [s.toNat_flag_setResultFlag x hbit]
      split <;> omega
    exact ⟨_, exec_shl x y s, s.setResultFlag_eq x _, hflag,
      fun hx => by rw [s.dest_setResultFlag _ hx, hdouble], fun _ hk hF => s.reg_setResultFlag_of_ne _ hk hF⟩

/-! Random-and (41_alu R151). -/

theorem exec_rnd (x : RegIdx) (nn : Byte) (s : State) :
    exec (.rnd x nn) s = .next (s.countDraw.setReg x (Config.draw s.draws &&& nn)) := rfl

/-- Settles O39: whatever byte is drawn, the mask is disjoint from its complement. -/
theorem randomAndMasksTheDraw : Obligations.RandomAndMasksTheDraw := by
  intro s x nn
  have hmask : (s.countDraw.setReg x (Config.draw s.draws &&& nn)).reg x &&& ~~~nn = 0 := by
    rw [State.reg_setReg_same, BitVec.and_assoc, BitVec.and_not_self]
    exact BitVec.and_zero
  exact ⟨_, exec_rnd x nn s, rfl, s.countDraw.reg_setReg x _, hmask⟩

end Sys2Proof.Machine
end

