-- ==== Sys2Proof/Proofs/CallStack.lean ====
section
/-! Call and return (40_flow R125, R127, 10_state R24, R25): what each comes to where its stack entry exists, at the end
of the stack, and with `SP` above 16, where there is no entry (log 7). -/

namespace Sys2Proof.Machine

/-! Call. -/

theorem exec_call_push {s : State} (nnn : Addr12) (h : s.sp.toNat < 16) :
    exec (.call nnn) s =
      .next { s with stack := s.stack.set s.sp.toNat s.pc h, sp := s.sp + 1, pc := addressOperand nnn } := by
  have hfull : s.sp ≠ Config.stackDepth := by rintro e; rw [e] at h; exact absurd h (by decide)
  rw [exec, execCall, if_neg hfull, State.push_eq s.pc h]
  rfl

theorem exec_call_full {s : State} (nnn : Addr12) (h : s.sp = 16) :
    exec (.call nnn) s = .next (s.raise (.stackOverflow s.pc)) := by
  rw [exec, execCall, if_pos h, Progress.finish_raised]

theorem exec_call_beyond {s : State} (nnn : Addr12) (h : 16 < s.sp.toNat) :
    exec (.call nnn) s = .fault (.noStackEntry s.sp) := by
  have hfull : s.sp ≠ Config.stackDepth := by rintro e; rw [e] at h; exact absurd h (by decide)
  rw [exec, execCall, if_neg hfull, State.push_none s.pc (by omega)]

/-! Return. -/

theorem exec_ret_pop {s : State} (h0 : s.sp ≠ 0) (h : s.sp.toNat - 1 < 16) :
    exec .ret s = .next { s with sp := s.sp - 1, pc := s.stack[s.sp.toNat - 1] } := by
  have hpred := State.sp_pred h0
  rw [exec, execRet, if_neg h0, State.pop_eq (by omega)]
  simp only [hpred, State.setPc]

theorem exec_ret_empty {s : State} (h : s.sp = 0) : exec .ret s = .next (s.raise (.stackUnderflow s.pc)) := by
  rw [exec, execRet, if_pos h, Progress.finish_raised]

theorem exec_ret_beyond {s : State} (h : 16 < s.sp.toNat) : exec .ret s = .fault (.noStackEntry s.sp) := by
  have h0 : s.sp ≠ 0 := by rintro e; rw [e] at h; exact absurd h (by decide)
  rw [exec, execRet, if_neg h0, State.pop_none (by rw [State.sp_pred h0]; omega)]

/-- Settles O26: the pop where the entry exists, the raise where there is none to pop. -/
theorem returnPopsTheStack : Obligations.ReturnPopsTheStack :=
  fun _ => ⟨fun h h0 => exec_ret_pop h0 h, exec_ret_empty⟩

/-- Settles O27: the push writes the entry at `SP` alone, and a full stack raises. -/
theorem callPushesReturnAddress : Obligations.CallPushesReturnAddress := by
  intro s nnn
  refine ⟨fun h => ⟨_, exec_call_push nnn h, rfl, fun k hk => ?_⟩, exec_call_full nnn⟩
  rw [Vector.getElem_set]
  exact if_congr eq_comm rfl rfl

/-- Settles O28: the return pops the entry the call has pushed. -/
theorem callThenReturnComesBack : Obligations.CallThenReturnComesBack := by
  intro s nnn h
  have hsp : (s.sp + 1).toNat = s.sp.toNat + 1 := by
    rw [BitVec.toNat_add]
    have : (1 : BitVec 5).toNat = 1 := rfl
    omega
  have h0 : s.sp + 1 ≠ 0 := fun e => by rw [e] at hsp; exact absurd hsp.symm (Nat.succ_ne_zero _)
  have hin : (s.sp + 1).toNat - 1 < 16 := by omega
  have hentry : (s.stack.set s.sp.toNat s.pc h)[(s.sp + 1).toNat - 1] = s.pc := by
    simp only [hsp, Nat.add_sub_cancel, Vector.getElem_set_self]
  refine ⟨_, _, exec_call_push nnn h, exec_ret_pop h0 hin, ?_⟩
  simp only [hentry, BitVec.add_sub_cancel]

end Sys2Proof.Machine
end

