-- ==== Sys2Proof/Proofs/BlockTransfers.lean ====
section
/-! Load-glyph-address and the memory transfers (42_address_memory R162 to R165). A transfer that starts at `I` moves
the bytes whose addresses lie in memory, whether or not a later address raises: `State.stored` and `State.loaded` are
the states it leaves, and one lemma for each says what they hold. -/

namespace Sys2Proof.Machine

/-! Load-glyph-address. -/

theorem exec_ldF (x : RegIdx) (s : State) : exec (.ldF x) s = .next (s.setI (s.glyphAddress x)) := rfl

/-- Settles O41: the product stays below 2^16, since a register holds at most 255. -/
theorem loadGlyphAddressMultipliesByFive : Obligations.LoadGlyphAddressMultipliesByFive := by
  intro s x
  have hlt := (s.reg x).isLt
  have haddr := s.toNat_glyphAddress x
  exact ⟨_, exec_ldF x s, s.setI_eq _, haddr, by rw [State.setI_i, haddr]; omega⟩

/-! Stores from `I` on. -/

/-- The bytes whose addresses lie in memory, stored from `I` on. -/
def State.stored (s : State) (vs : List Byte) : State :=
  { s with mem := s.mem.writeList s.i.toNat (vs.take (0x1000 - s.i.toNat)) }

theorem State.stored_eq (s : State) (vs : List Byte) : s.stored vs = { s with mem := (s.stored vs).mem } := rfl

theorem State.stored_of_le {s : State} {vs : List Byte} (h : s.i.toNat + vs.length ≤ 0x1000) :
    s.stored vs = { s with mem := s.mem.writeList s.i.toNat vs } := by
  rw [State.stored, List.take_of_length_le (by omega)]

theorem State.stored_of_lt {s : State} (vs : List Byte) (h : 0xFFF < s.i.toNat) : s.stored vs = s := by
  rw [State.stored, Nat.sub_eq_zero_of_le h, List.take_zero]
  rfl

/-- 20_memory R65: a store from `I` on that fits runs to its end. -/
theorem storeBytes_of_le {s : State} {vs : List Byte} (h : s.i.toNat + vs.length ≤ 0x1000) :
    storeBytes vs s.i s = .running (s.stored vs) := by
  rw [storeBytes_running vs s.i s h, State.stored_of_le h]

/-- 60_exceptions R201: a store from `I` on that does not fit raises at the first bad address. -/
theorem storeBytes_of_lt {s : State} {v : Byte} {vs : List Byte} (h : 0x1000 < s.i.toNat + (v :: vs).length) :
    storeBytes (v :: vs) s.i s = .raised (.memoryBounds s.firstBadAddress) (s.stored (v :: vs)) := by
  by_cases hi : s.i.toNat ≤ 0xFFF
  · rw [storeBytes_raised _ s.i s (by omega) h, State.firstBadAddress, if_pos hi]
    rfl
  · rw [storeBytes_outside v vs s.i s (by omega), State.firstBadAddress, if_neg hi, State.stored_of_lt _ (by omega)]

theorem State.length_take_fits (s : State) (vs : List Byte) (hi : s.i.toNat ≤ 0x1000) :
    s.i.toNat + (vs.take (0x1000 - s.i.toNat)).length ≤ Config.memSize := by
  rw [List.length_take, Config.memSize]
  omega

theorem State.wf_stored {s : State} (hwf : s.mem.wf = true) (vs : List Byte) : (s.stored vs).mem.wf = true := by
  by_cases hi : 0xFFF < s.i.toNat
  · rwa [State.stored_of_lt vs hi]
  · exact Memory.wf_writeList hwf _ (s.length_take_fits vs (by omega))

/-- Byte `k` of the list is read at `I + k` where that lies in memory, and every other address reads as before. -/
theorem State.read_stored {s : State} (hwf : s.mem.wf = true) (vs : List Byte) (a : Nat) :
    (s.stored vs).mem.read a =
      if s.i.toNat ≤ a ∧ a < s.i.toNat + vs.length ∧ a ≤ 0xFFF then vs.getD (a - s.i.toNat) 0 else s.mem.read a := by
  by_cases hi : 0xFFF < s.i.toNat
  · rw [State.stored_of_lt vs hi, if_neg (by omega)]
  · rw [State.stored, Memory.read_writeList hwf _ (s.length_take_fits vs (by omega)), List.length_take]
    by_cases ha : s.i.toNat ≤ a ∧ a < s.i.toNat + vs.length ∧ a ≤ 0xFFF
    · rw [if_pos ha, if_pos (by omega), List.getD_eq_getElem?_getD, List.getElem?_take_of_lt (by omega),
        List.getD_eq_getElem?_getD]
    · rw [if_neg ha, if_neg (by omega)]

theorem State.read_stored_byte {s : State} (hwf : s.mem.wf = true) {vs : List Byte} {k : Nat} (hk : k < vs.length)
    (hin : s.i.toNat + k ≤ 0xFFF) : (s.stored vs).mem.read (s.i.toNat + k) = vs.getD k 0 := by
  rw [State.read_stored hwf, if_pos (by omega), Nat.add_sub_cancel_left]

theorem State.read_stored_outside {s : State} (hwf : s.mem.wf = true) {vs : List Byte} {a : Nat}
    (h : a < s.i.toNat ∨ s.i.toNat + vs.length ≤ a ∨ 0xFFF < a) : (s.stored vs).mem.read a = s.mem.read a := by
  rw [State.read_stored hwf, if_neg (by omega)]

/-! Loads from `I` on. -/

/-- The first `n` registers, loaded from `I` on where their addresses lie in memory. -/
def State.loaded (s : State) (n : Nat) : State :=
  s.setRegs 0 (s.mem.readList s.i.toNat (min n (0x1000 - s.i.toNat)))

theorem State.loaded_eq (s : State) (n : Nat) : s.loaded n = { s with x := (s.loaded n).x } := s.setRegs_eq 0 _

theorem loadBytes_of_le {s : State} {n : Nat} (h : s.i.toNat + n ≤ 0x1000) :
    loadBytes n 0 s.i s = .running (s.loaded n) := by
  rw [loadBytes_running n 0 s.i s h, State.loaded, Nat.min_eq_left (by omega)]

theorem loadBytes_of_lt {s : State} {n : Nat} (h : 0x1000 < s.i.toNat + (n + 1)) :
    loadBytes (n + 1) 0 s.i s = .raised (.memoryBounds s.firstBadAddress) (s.loaded (n + 1)) := by
  rw [State.loaded, Nat.min_eq_right (by omega)]
  by_cases hi : s.i.toNat ≤ 0xFFF
  · rw [loadBytes_raised _ 0 s.i s (by omega) h, State.firstBadAddress, if_pos hi]
  · rw [loadBytes_outside n 0 s.i s (by omega), State.firstBadAddress, if_neg hi, Nat.sub_eq_zero_of_le (by omega)]
    rfl

theorem Memory.length_readList (m : Memory) (a n : Nat) : (m.readList a n).length = n := by
  rw [Memory.readList, List.length_map, List.length_range]

theorem Memory.getD_readList (m : Memory) {a n k : Nat} (h : k < n) : (m.readList a n).getD k 0 = m.read (a + k) := by
  rw [List.getD_eq_getElem _ _ (by rwa [Memory.length_readList])]
  simp only [Memory.readList, List.getElem_map, List.getElem_range]

/-- A register among the first `n` holds its byte where the address lies in memory; every other keeps its value. -/
theorem State.reg_loaded (s : State) {n : Nat} (hn : n ≤ 16) (k : RegIdx) :
    (s.loaded n).reg k =
      if k.toNat < n ∧ s.i.toNat + k.toNat ≤ 0xFFF then s.mem.read (s.i.toNat + k.toNat) else s.reg k := by
  rw [State.loaded, State.reg_setRegs _ _ _ (by rw [Memory.length_readList]; omega), Memory.length_readList]
  by_cases hk : k.toNat < n ∧ s.i.toNat + k.toNat ≤ 0xFFF
  · rw [if_pos hk, if_pos (by omega), Nat.sub_zero, Memory.getD_readList _ (by omega)]
  · rw [if_neg hk, if_neg (by omega)]

/-! What the three transfers come to. -/

theorem exec_ldB_of_le {s : State} (x : RegIdx) (h : s.i.toNat + 2 ≤ 0xFFF) :
    exec (.ldB x) s = .next (s.stored (decimalDigits (s.reg x))) := by
  rw [exec, execLdB, storeBytes_of_le (by rw [length_decimalDigits]; omega), Progress.finish_running]

theorem exec_ldB_of_lt {s : State} (x : RegIdx) (h : 0xFFF < s.i.toNat + 2) :
    exec (.ldB x) s = .next ((s.stored (decimalDigits (s.reg x))).raise (.memoryBounds s.firstBadAddress)) := by
  rw [exec, execLdB, decimalDigits, storeBytes_of_lt (by simp only [List.length_cons, List.length_nil]; omega),
    Progress.finish_raised]

theorem State.regsUpTo_eq_cons (s : State) (x : RegIdx) : ∃ v vs, s.regsUpTo x = v :: vs :=
  List.exists_cons_of_length_eq_add_one (s.length_regsUpTo x)

theorem exec_stRegs_of_le {s : State} (x : RegIdx) (h : s.i.toNat + x.toNat ≤ 0xFFF) :
    exec (.stRegs x) s = .next ((s.stored (s.regsUpTo x)).setI (s.i + blockLength x)) := by
  rw [exec, execStRegs, storeBytes_of_le (by rw [s.length_regsUpTo]; omega), Progress.andThen_running,
    Progress.finish_running]
  rfl

theorem exec_stRegs_of_lt {s : State} (x : RegIdx) (h : 0xFFF < s.i.toNat + x.toNat) :
    exec (.stRegs x) s = .next ((s.stored (s.regsUpTo x)).raise (.memoryBounds s.firstBadAddress)) := by
  have hlen := s.length_regsUpTo x
  obtain ⟨v, vs, hvs⟩ := s.regsUpTo_eq_cons x
  rw [hvs] at hlen
  rw [exec, execStRegs, hvs, storeBytes_of_lt (by omega), Progress.andThen_raised, Progress.finish_raised]

theorem exec_ldRegs_of_le {s : State} (x : RegIdx) (h : s.i.toNat + x.toNat ≤ 0xFFF) :
    exec (.ldRegs x) s = .next ((s.loaded (x.toNat + 1)).setI (s.i + blockLength x)) := by
  rw [exec, execLdRegs, loadBytes_of_le (by omega), Progress.andThen_running, Progress.finish_running, s.loaded_eq]

theorem exec_ldRegs_of_lt {s : State} (x : RegIdx) (h : 0xFFF < s.i.toNat + x.toNat) :
    exec (.ldRegs x) s = .next ((s.loaded (x.toNat + 1)).raise (.memoryBounds s.firstBadAddress)) := by
  rw [exec, execLdRegs, loadBytes_of_lt (by omega), Progress.andThen_raised, Progress.finish_raised]

/-- 42_address_memory R164, R165: where the block lies in memory, `I` moves past it without wrapping. -/
theorem State.toNat_i_add_blockLength {s : State} {x : RegIdx} (h : s.i.toNat + x.toNat ≤ 0xFFF) :
    (s.i + blockLength x).toNat = s.i.toNat + x.toNat + 1 := by
  rw [BitVec.toNat_add, toNat_blockLength]
  omega

/-! Store-digits and store-registers. -/

/-- 42_address_memory R163: the digits in the order they are stored. -/
theorem toNat_getD_decimalDigits (v : Byte) :
    ((decimalDigits v).getD 0 0).toNat = v.toNat / 100 ∧ ((decimalDigits v).getD 1 0).toNat = v.toNat / 10 % 10 ∧
      ((decimalDigits v).getD 2 0).toNat = v.toNat % 10 := by
  simp [decimalDigits]

/-- Settles O42: the three digits are the bytes stored, and nothing outside them is. -/
theorem storeDigitsWritesThreeBytes : Obligations.StoreDigitsWritesThreeBytes := by
  intro s x hwf hin
  obtain ⟨h100, h10, h1⟩ := toNat_getD_decimalDigits (s.reg x)
  have hbyte (k : Nat) (hk : k < 3) : (s.stored (decimalDigits (s.reg x))).mem.read (s.i.toNat + k) =
      (decimalDigits (s.reg x)).getD k 0 := State.read_stored_byte hwf hk (by omega)
  refine ⟨_, exec_ldB_of_le x hin, s.stored_eq _, ?hundreds, ?tens, ?units, fun a ha => ?outside⟩
  case hundreds => rw [← h100, ← hbyte 0 (by omega), Nat.add_zero]
  case tens => rw [← h10, ← hbyte 1 (by omega)]
  case units => rw [← h1, ← hbyte 2 (by omega)]
  case outside => exact State.read_stored_outside hwf (by rw [length_decimalDigits]; omega)

theorem State.read_stored_reg {s : State} (hwf : s.mem.wf = true) {x k : RegIdx} (hk : k.toNat ≤ x.toNat)
    (hin : s.i.toNat + k.toNat ≤ 0xFFF) : (s.stored (s.regsUpTo x)).mem.read (s.i.toNat + k.toNat) = s.reg k := by
  rw [State.read_stored_byte hwf (by rw [s.length_regsUpTo]; omega) hin, s.getD_regsUpTo x k hk]

/-- Settles O43: the block lies in memory, so every register of it is stored. -/
theorem storeRegistersWritesTheBlock : Obligations.StoreRegistersWritesTheBlock := by
  intro s x hwf hin
  refine ⟨_, exec_stRegs_of_le x hin, rfl, State.toNat_i_add_blockLength hin, fun k hk => ?inside, fun a ha => ?outside⟩
  case inside => exact State.read_stored_reg hwf hk (by omega)
  case outside => exact State.read_stored_outside hwf (by rw [s.length_regsUpTo]; omega)

/-! Load-registers. -/

/-- Settles O44: the block lies in memory, so every register of it is loaded. -/
theorem loadRegistersReadsTheBlock : Obligations.LoadRegistersReadsTheBlock := by
  intro s x hin
  have hx := x.isLt
  refine ⟨_, exec_ldRegs_of_le x hin, by rw [s.loaded_eq]; rfl, State.toNat_i_add_blockLength hin, fun k => ?_⟩
  rw [State.reg_setI, s.reg_loaded (by omega)]
  exact if_congr ⟨fun h => by omega, fun h => by omega⟩ rfl rfl

/-- Settles O46: the load reads each register of the block from the address the store has written it to. -/
theorem storeThenLoadRestoresRegisters : Obligations.StoreThenLoadRestoresRegisters := by
  intro s x hwf hin
  refine ⟨_, exec_stRegs_of_le x hin, fun u hmem hi => ?_⟩
  refine ⟨_, exec_ldRegs_of_le x (by rwa [hi]), fun k hk => ?_⟩
  have hx := x.isLt
  rw [State.reg_setI, u.reg_loaded (by omega), if_pos (by rw [hi]; omega), hi, hmem]
  exact State.read_stored_reg hwf hk (by omega)

/-! Transfers that raise (60_exceptions R200, R201). -/

/-- Settles O45: the bytes, or registers, whose addresses lie in memory are moved, and the latch receives the first bad
address. -/
theorem transfersRaiseAtFirstBadAddress : Obligations.TransfersRaiseAtFirstBadAddress := by
  intro s x hwf
  have hx := x.isLt
  refine ⟨fun hout => ?ldB, fun hout => ?stRegs, fun hout => ?ldRegs⟩
  case ldB =>
    obtain ⟨h100, h10, -⟩ := toNat_getD_decimalDigits (s.reg x)
    have hbyte (k : Nat) (hk : k < 3) (hin : s.i.toNat + k ≤ 0xFFF) :
        (s.stored (decimalDigits (s.reg x))).mem.read (s.i.toNat + k) = (decimalDigits (s.reg x)).getD k 0 :=
      State.read_stored_byte hwf hk hin
    refine ⟨_, exec_ldB_of_lt x hout, rfl, fun hin => ?_, fun hin => ?_, fun a ha => ?_⟩
    · rw [← h100, ← hbyte 0 (by omega) hin, Nat.add_zero, State.raise_mem]
    · rw [← h10, ← hbyte 1 (by omega) hin, State.raise_mem]
    · exact State.read_stored_outside hwf (by rw [length_decimalDigits]; omega)
  case stRegs =>
    refine ⟨_, exec_stRegs_of_lt x hout, rfl, fun k hk => ?_, fun a ha => ?_⟩
    · exact State.read_stored_reg hwf (by omega) hk
    · exact State.read_stored_outside hwf (by rw [s.length_regsUpTo]; omega)
  case ldRegs =>
    refine ⟨_, exec_ldRegs_of_lt x hout, by rw [s.loaded_eq]; rfl, fun k => ?_⟩
    rw [State.reg_raise, s.reg_loaded (by omega)]
    exact if_congr ⟨fun h => h.2, fun h => ⟨by omega, h⟩⟩ rfl rfl

end Sys2Proof.Machine
end

