-- ==== Sys2Proof/Proofs/DrawSprite.lean ====
section
/-! Draw-sprite (43_display R181): what its dispatch comes to, as a number of rows drawn from the origin, and what those
rows do to the pixels and to the flag register, in the terms of the statements. -/

namespace Sys2Proof.Machine

/-! The rows drawn. -/

/-- The first `rows` rows of the sprite at `I`, drawn from the origin read before the flag register is cleared. -/
def State.drawn (s : State) (x y : RegIdx) (rows : Nat) : State :=
  (s.setFlag false).afterRows (s.reg x).toNat (s.reg y).toNat rows 0

theorem State.drawn_frame (s : State) (x y : RegIdx) (rows : Nat) : DrawFrame s (s.drawn x y rows) :=
  DrawFrame.trans (t := s.setFlag false) rfl ((s.setFlag false).afterRows_frame _ _ rows 0)

theorem exec_drw_of_le {s : State} (x y : RegIdx) {n : Nibble} (h : n = 0 ∨ s.i.toNat + n.toNat ≤ 0x1000) :
    exec (.drw x y n) s = .next (s.drawn x y n.toNat).markDirty := by
  have hrows : n.toNat = 0 ∨ (s.setFlag false).i.toNat + 0 + n.toNat ≤ 0x1000 := h.imp (fun e => by rw [e]; rfl) id
  rw [exec, execDrw, drawRows_running _ _ _ _ _ hrows, Progress.andThen_running, Progress.finish_running]
  rfl

theorem exec_drw_of_lt {s : State} (x y : RegIdx) {n : Nibble} (h0 : n ≠ 0) (h : 0x1000 < s.i.toNat + n.toNat) :
    exec (.drw x y n) s =
      .next ((s.drawn x y (0x1000 - s.i.toNat)).raise (.memoryBounds s.firstBadAddress)) := by
  rw [exec, execDrw]
  by_cases hi : s.i.toNat ≤ 0xFFF
  · rw [drawRows_raised _ _ _ _ _ (by rw [State.setFlag_i]; omega) (by rw [State.setFlag_i]; omega),
      Progress.andThen_raised, Progress.finish_raised, State.firstBadAddress, if_pos hi]
    rfl
  · obtain ⟨m, hm⟩ := Nat.exists_eq_add_one_of_ne_zero fun e => h0 (BitVec.eq_of_toNat_eq e)
    rw [hm, drawRows_outside _ _ _ _ (by rw [State.setFlag_i]; omega), Progress.andThen_raised, Progress.finish_raised,
      State.firstBadAddress, if_neg hi, Nat.sub_eq_zero_of_le (by omega)]
    rfl

/-! Pixels. -/

theorem State.rowsHit_iff_spriteCovers (s : State) (vx vy : Byte) (rows : Nat) {r c : Nat} (hr : r < 32) (hc : c < 64) :
    s.rowsHit vx.toNat vy.toNat rows 0 r c = true ↔ s.spriteCovers vx vy rows r c := by
  simp only [State.rowsHit, List.any_eq_true, List.mem_range'_1, bitsHit_iff, State.spriteCovers, Nat.mod_eq_of_lt hr,
    Nat.mod_eq_of_lt hc, Nat.zero_le, Nat.zero_add, true_and]
  constructor
  · rintro ⟨row, hrow, bit, hbit, hset, hrow', hcol⟩
    exact ⟨row, hrow, bit, hbit, hrow', hcol, hset⟩
  · rintro ⟨row, hrow, bit, hbit, hrow', hcol, hset⟩
    exact ⟨row, hrow, bit, hbit, hset, hrow', hcol⟩

theorem State.pixel_drawn (s : State) (x y : RegIdx) {rows : Nat} (hrows : rows ≤ 32) (r c : Nat) :
    (s.drawn x y rows).pixel r c = (s.pixel r c ^^ s.rowsHit (s.reg x).toNat (s.reg y).toNat rows 0 r c) :=
  (s.setFlag false).pixel_afterRows _ _ _ _ hrows r c

theorem State.pixel_drawn_iff (s : State) (x y : RegIdx) {rows : Nat} (hrows : rows ≤ 32) {r c : Nat} (hr : r < 32)
    (hc : c < 64) : (s.drawn x y rows).pixel r c = true ↔
      ¬(s.pixel r c = true ↔ s.spriteCovers (s.reg x) (s.reg y) rows r c) := by
  rw [s.pixel_drawn x y hrows, Bool.xor_iff_ne, ne_eq, Bool.eq_iff_iff, s.rowsHit_iff_spriteCovers _ _ _ hr hc]

/-! The flag register. -/

/-- A collision, with the pixels named by the bits that land on them. -/
theorem State.spriteCollides_iff (s : State) (vx vy : Byte) (rows : Nat) :
    s.spriteCollides vx vy rows ↔ ∃ q < rows, ∃ j < 8, (s.mem.read (s.i.toNat + q)).getLsbD (7 - j) = true ∧
      s.pixel (vy.toNat + q) (vx.toNat + j) = true := by
  constructor
  · rintro ⟨_, _, ⟨q, hq, j, hj, rfl, rfl, hset⟩, hlit⟩
    exact ⟨q, hq, j, hj, hset, by rwa [s.pixel_mod] at hlit⟩
  · rintro ⟨q, hq, j, hj, hset, hlit⟩
    exact ⟨_, _, ⟨q, hq, j, hj, rfl, rfl, hset⟩, by rwa [s.pixel_mod]⟩

/-- What drawing does to a register: the flag register tells whether there was a collision, the others keep their
values. -/
theorem State.reg_drawn_cases (s : State) (x y : RegIdx) {rows : Nat} (hrows : rows ≤ 32) (k : RegIdx) :
    ((s.drawn x y rows).reg k = 1 ∧ k = 0xF ∧ s.spriteCollides (s.reg x) (s.reg y) rows) ∨
      ((s.drawn x y rows).reg k = (s.setFlag false).reg k ∧
        (k = 0xF → ¬ s.spriteCollides (s.reg x) (s.reg y) rows)) := by
  rw [State.spriteCollides_iff]
  rcases (s.setFlag false).reg_afterRows (s.reg x).toNat (s.reg y).toNat rows 0 hrows k with
    ⟨hreg, hk, q, -, hq, j, hj, hset, hlit⟩ | ⟨hreg, hnone⟩
  · exact .inl ⟨hreg, hk, q, by omega, j, hj, hset, hlit⟩
  · refine .inr ⟨hreg, fun hk => ?_⟩
    rintro ⟨q, hq, j, hj, hset, hlit⟩
    exact Bool.false_ne_true ((hnone hk q (Nat.zero_le q) (by omega) j hj hset).symm.trans hlit)

theorem State.flag_drawn_of_collides (s : State) (x y : RegIdx) {rows : Nat} (hrows : rows ≤ 32)
    (h : s.spriteCollides (s.reg x) (s.reg y) rows) : (s.drawn x y rows).reg 0xF = 1 := by
  rcases s.reg_drawn_cases x y hrows 0xF with ⟨hreg, -⟩ | ⟨-, hno⟩
  · exact hreg
  · exact absurd h (hno rfl)

theorem State.flag_drawn_of_not_collides (s : State) (x y : RegIdx) {rows : Nat} (hrows : rows ≤ 32)
    (h : ¬ s.spriteCollides (s.reg x) (s.reg y) rows) : (s.drawn x y rows).reg 0xF = 0 := by
  rcases s.reg_drawn_cases x y hrows 0xF with ⟨-, -, hcol⟩ | ⟨hreg, -⟩
  · exact absurd hcol h
  · rw [hreg, State.reg_setFlag, if_pos rfl]
    rfl

theorem State.reg_drawn_of_ne (s : State) (x y : RegIdx) {rows : Nat} (hrows : rows ≤ 32) {k : RegIdx} (hk : k ≠ 0xF) :
    (s.drawn x y rows).reg k = s.reg k := by
  rcases s.reg_drawn_cases x y hrows k with ⟨-, hk', -⟩ | ⟨hreg, -⟩
  · exact absurd hk' hk
  · rw [hreg, State.reg_setFlag, if_neg hk]

/-! The statements. -/

/-- Settles O23: all the rows lie in memory and are drawn. -/
theorem drawSpriteXorsAndReportsCollision : Obligations.DrawSpriteXorsAndReportsCollision := by
  intro s x y n hin
  have hrows : n.toNat ≤ 32 := by have := n.isLt; omega
  refine ⟨_, exec_drw_of_le x y hin, ?_, fun r c hr hc => s.pixel_drawn_iff x y hrows hr hc,
    s.flag_drawn_of_collides x y hrows, s.flag_drawn_of_not_collides x y hrows,
    fun k hk => s.reg_drawn_of_ne x y hrows hk⟩
  rw [s.drawn_frame x y]
  rfl

/-- Settles O24: the rows below the first bad address are drawn, and the raise leaves what they did. -/
theorem drawSpriteRaisesAtFirstBadRow : Obligations.DrawSpriteRaisesAtFirstBadRow := by
  intro s x y n h0 hout
  have hrows : 0x1000 - s.i.toNat ≤ 32 := by have := n.isLt; omega
  refine ⟨_, exec_drw_of_lt x y h0 hout, ?_, fun r c hr hc => s.pixel_drawn_iff x y hrows hr hc,
    s.flag_drawn_of_collides x y hrows, s.flag_drawn_of_not_collides x y hrows,
    fun k hk => s.reg_drawn_of_ne x y hrows hk⟩
  rw [s.drawn_frame x y]
  rfl

/-- Settles O25: the second draw reads the same origin, `I` and memory, so it flips the same pixels back. -/
theorem drawTwiceRestoresTheScreen : Obligations.DrawTwiceRestoresTheScreen := by
  intro s x y n hx hy hin
  have hrows : n.toNat ≤ 32 := by have := n.isLt; omega
  have hframe := s.drawn_frame x y n.toNat
  refine ⟨_, _, exec_drw_of_le x y (.inr hin), exec_drw_of_le x y (.inr ?_), ?_⟩
  · rw [State.markDirty_i, hframe.i]
    exact hin
  · refine State.fb_ext fun r c _ _ => ?_
    rw [State.pixel_markDirty, State.pixel_drawn _ x y hrows, State.pixel_markDirty, State.pixel_drawn _ x y hrows,
      State.reg_markDirty, State.reg_markDirty, s.reg_drawn_of_ne x y hrows hx, s.reg_drawn_of_ne x y hrows hy]
    simp only [State.rowsHit, State.markDirty_mem, State.markDirty_i, hframe.mem, hframe.i]
    rw [Bool.xor_assoc, Bool.xor_self, Bool.xor_false]

end Sys2Proof.Machine
end

