-- ==== Sys2Proof/Proofs/ExecFrame.lean ====
section
/-! What every instruction may change and when it raises (10_state, 60_exceptions R200, R201). The instructions that can
end in more than one way have an inversion lemma each; every other answers one update of the state. -/

namespace Sys2Proof.Machine

/-! Block-until-key (44_keys_timers R192). -/

theorem exec_ldVxK_none {s : State} (x : RegIdx) (h : s.lowestKey = none) : exec (.ldVxK x) s = .next s.rewind := by
  rw [exec, execLdVxK, h]

theorem exec_ldVxK_some {s : State} (x : RegIdx) {k : Nat} (h : s.lowestKey = some k) :
    exec (.ldVxK x) s = .next (s.setReg x (BitVec.ofNat 8 k)) := by
  rw [exec, execLdVxK, h]

theorem State.key_of_keys_eq_zero {s : State} (h : s.keys = 0) (k : Nat) : s.key k = false := by
  rw [State.key, h]
  exact BitVec.getLsbD_zero

theorem exec_ldVxK_of_keys_eq_zero {s : State} (x : RegIdx) (h : s.keys = 0) : exec (.ldVxK x) s = .next s.rewind := by
  rcases s.pressedFrom_cases 16 0 with ⟨hnone, -⟩ | ⟨k, -, -, -, hkey, -⟩
  · exact exec_ldVxK_none x hnone
  · exact absurd ((State.key_of_keys_eq_zero h k).symm.trans hkey) Bool.false_ne_true

/-- The least pressed key is the one loaded. -/
theorem exec_ldVxK_of_keys_ne_zero {s : State} (x : RegIdx) (h : s.keys ≠ 0) :
    ∃ k, k < 16 ∧ s.key k = true ∧ (∀ j, j < k → s.key j = false) ∧
      exec (.ldVxK x) s = .next (s.setReg x (BitVec.ofNat 8 k)) := by
  rcases s.pressedFrom_cases 16 0 with ⟨-, hall⟩ | ⟨k, hk, -, hlt, hkey, hleast⟩
  · have hzero : s.keys = 0 := BitVec.eq_of_getLsbD_eq fun j hj =>
      (hall j (Nat.zero_le j) (by omega)).trans BitVec.getLsbD_zero.symm
    exact absurd hzero h
  · exact ⟨k, by omega, hkey, fun j hj => hleast j (Nat.zero_le j) hj, exec_ldVxK_some x hk⟩

/-- Settles O47: the scan of the latch finds no key, or the least one. -/
theorem blockUntilKeyLoadsLowestKey : Obligations.BlockUntilKeyLoadsLowestKey := by
  intro s x
  refine ⟨exec_ldVxK_of_keys_eq_zero x, fun h => ?_⟩
  obtain ⟨k, hk, hkey, hleast, hexec⟩ := exec_ldVxK_of_keys_ne_zero x h
  have hval : ((s.setReg x (BitVec.ofNat 8 k)).reg x).toNat = k := by
    rw [State.reg_setReg_same, BitVec.toNat_ofNat, Nat.mod_eq_of_lt (by omega)]
  exact ⟨k, _, hk, hkey, hleast, hexec, s.setReg_eq x _, hval, fun j hj => s.reg_setReg_of_ne _ hj⟩

/-! Inversion: what an instruction that can end in more than one way may answer. -/

section Inversion

variable {s t : State}

theorem exec_ldVxK_cases {x : RegIdx} (h : exec (.ldVxK x) s = .next t) :
    (s.keys = 0 ∧ t = s.rewind) ∨ (s.keys ≠ 0 ∧ ∃ v, t = s.setReg x v) := by
  by_cases hk : s.keys = 0
  · rw [exec_ldVxK_of_keys_eq_zero x hk] at h
    exact .inl ⟨hk, (Host.Outcome.next.inj h).symm⟩
  · obtain ⟨k, -, -, -, hexec⟩ := exec_ldVxK_of_keys_ne_zero x hk
    rw [hexec] at h
    exact .inr ⟨hk, _, (Host.Outcome.next.inj h).symm⟩

theorem exec_call_cases {nnn : Addr12} (h : exec (.call nnn) s = .next t) :
    (∃ hsp : s.sp.toNat < 16,
      t = { s with stack := s.stack.set s.sp.toNat s.pc hsp, sp := s.sp + 1, pc := addressOperand nnn }) ∨
    (s.sp = 16 ∧ t = s.raise (.stackOverflow s.pc)) := by
  rcases lt_trichotomy s.sp.toNat 16 with hlt | heq | hgt
  · rw [exec_call_push nnn hlt] at h
    exact .inl ⟨hlt, (Host.Outcome.next.inj h).symm⟩
  · have hsp : s.sp = 16 := BitVec.eq_of_toNat_eq heq
    rw [exec_call_full nnn hsp] at h
    exact .inr ⟨hsp, (Host.Outcome.next.inj h).symm⟩
  · rw [exec_call_beyond nnn hgt] at h
    cases h

theorem exec_ret_cases (h : exec .ret s = .next t) :
    (s.sp ≠ 0 ∧ ∃ hsp : s.sp.toNat - 1 < 16, t = { s with sp := s.sp - 1, pc := s.stack[s.sp.toNat - 1] }) ∨
    (s.sp = 0 ∧ t = s.raise (.stackUnderflow s.pc)) := by
  by_cases h0 : s.sp = 0
  · rw [exec_ret_empty h0] at h
    exact .inr ⟨h0, (Host.Outcome.next.inj h).symm⟩
  · by_cases hsp : s.sp.toNat - 1 < 16
    · rw [exec_ret_pop h0 hsp] at h
      exact .inl ⟨h0, hsp, (Host.Outcome.next.inj h).symm⟩
    · rw [exec_ret_beyond (by omega)] at h
      cases h

/-- An answer that is one of two by two conditions, one of which holds. -/
theorem next_eq_or {r : Result} {a b : State} {p q : Prop} (hpq : p ∨ q) (hp : p → r = .next a) (hq : q → r = .next b)
    (h : r = .next t) : (p ∧ t = a) ∨ (q ∧ t = b) :=
  hpq.imp (fun hp' => ⟨hp', Host.Outcome.next.inj (h.symm.trans (hp hp'))⟩)
    (fun hq' => ⟨hq', Host.Outcome.next.inj (h.symm.trans (hq hq'))⟩)

theorem exec_drw_cases {x y : RegIdx} {n : Nibble} (h : exec (.drw x y n) s = .next t) :
    ((n = 0 ∨ s.i.toNat + n.toNat ≤ 0x1000) ∧ t = (s.drawn x y n.toNat).markDirty) ∨
    ((n ≠ 0 ∧ 0x1000 < s.i.toNat + n.toNat) ∧
      t = (s.drawn x y (0x1000 - s.i.toNat)).raise (.memoryBounds s.firstBadAddress)) := by
  refine next_eq_or ?_ (exec_drw_of_le x y) (fun hout => exec_drw_of_lt x y hout.1 hout.2) h
  rw [← Nat.not_le, ne_eq, ← not_or]
  exact em _

theorem exec_ldB_cases {x : RegIdx} (h : exec (.ldB x) s = .next t) :
    (s.i.toNat + 2 ≤ 0xFFF ∧ t = s.stored (decimalDigits (s.reg x))) ∨
    (0xFFF < s.i.toNat + 2 ∧ t = (s.stored (decimalDigits (s.reg x))).raise (.memoryBounds s.firstBadAddress)) :=
  next_eq_or (le_or_gt _ _) (exec_ldB_of_le x) (exec_ldB_of_lt x) h

theorem exec_stRegs_cases {x : RegIdx} (h : exec (.stRegs x) s = .next t) :
    (s.i.toNat + x.toNat ≤ 0xFFF ∧ t = (s.stored (s.regsUpTo x)).setI (s.i + blockLength x)) ∨
    (0xFFF < s.i.toNat + x.toNat ∧ t = (s.stored (s.regsUpTo x)).raise (.memoryBounds s.firstBadAddress)) :=
  next_eq_or (le_or_gt _ _) (exec_stRegs_of_le x) (exec_stRegs_of_lt x) h

theorem exec_ldRegs_cases {x : RegIdx} (h : exec (.ldRegs x) s = .next t) :
    (s.i.toNat + x.toNat ≤ 0xFFF ∧ t = (s.loaded (x.toNat + 1)).setI (s.i + blockLength x)) ∨
    (0xFFF < s.i.toNat + x.toNat ∧ t = (s.loaded (x.toNat + 1)).raise (.memoryBounds s.firstBadAddress)) :=
  next_eq_or (le_or_gt _ _) (exec_ldRegs_of_le x) (exec_ldRegs_of_lt x) h

end Inversion

/-- A skip is a write of `pc`. -/
theorem State.skipIf_eq_setPc (s : State) (c : Bool) : s.skipIf c = s.setPc (if c then s.pc + 2 else s.pc) := by
  cases c <;> rfl

/-! The registers written (10_state R20, R21). -/

/-- Settles O18: by the update each instruction makes. -/
theorem onlyNamedRegistersAreWritten : Obligations.OnlyNamedRegistersAreWritten := by
  intro i s t k h hk
  cases i with
  | cls | jp | jpVx | ldI | addI | ldF | ldDtVx | ldStVx =>
    obtain rfl := Host.Outcome.next.inj h
    rfl
  | seImm | sneImm | seReg | sneReg | skp | sknp =>
    obtain rfl := Host.Outcome.next.inj h
    rw [State.skipIf_eq_setPc, State.reg_setPc]
  | ldImm | addImm | ldReg | or | and | xor | ldVxDt =>
    obtain rfl := Host.Outcome.next.inj h
    exact s.reg_setReg_of_ne _ hk
  | rnd =>
    obtain rfl := Host.Outcome.next.inj h
    exact s.countDraw.reg_setReg_of_ne _ hk
  | addReg | sub | shr | subn | shl =>
    obtain rfl := Host.Outcome.next.inj h
    obtain ⟨hx, hF⟩ := not_or.mp hk
    exact s.reg_setResultFlag_of_ne _ hx hF
  | ldVxK =>
    rcases exec_ldVxK_cases h with ⟨-, rfl⟩ | ⟨-, v, rfl⟩
    · rfl
    · exact s.reg_setReg_of_ne v hk
  | drw x y n =>
    have hn := n.isLt
    rcases exec_drw_cases h with ⟨-, rfl⟩ | ⟨⟨-, hout⟩, rfl⟩
    · exact s.reg_drawn_of_ne x y (by omega) hk
    · exact s.reg_drawn_of_ne x y (by omega) hk
  | ldRegs x =>
    have hreg : (s.loaded (x.toNat + 1)).reg k = s.reg k := by
      have hx := x.isLt
      have hk' : ¬ k.toNat ≤ x.toNat := hk
      rw [s.reg_loaded (by omega), if_neg (by omega)]
    rcases exec_ldRegs_cases h with ⟨-, rfl⟩ | ⟨-, rfl⟩ <;> exact hreg
  | ret => rcases exec_ret_cases h with ⟨-, -, rfl⟩ | ⟨-, rfl⟩ <;> rfl
  | call => rcases exec_call_cases h with ⟨-, rfl⟩ | ⟨-, rfl⟩ <;> rfl
  | ldB => rcases exec_ldB_cases h with ⟨-, rfl⟩ | ⟨-, rfl⟩ <;> rfl
  | stRegs => rcases exec_stRegs_cases h with ⟨-, rfl⟩ | ⟨-, rfl⟩ <;> rfl

/-! The frame outside the registers. -/

theorem State.loaded_exists_eq (s : State) (n : Nat) : ∃ x, s.loaded n = { s with x := x } := ⟨_, s.loaded_eq n⟩

theorem State.drawn_exists_eq (s : State) (x y : RegIdx) (rows : Nat) :
    ∃ regs fb, s.drawn x y rows = { s with x := regs, fb := fb } := ⟨_, _, s.drawn_frame x y rows⟩

/-- Settles O19: by the update each instruction makes. -/
theorem instructionsChangeOnlyNamedState : Obligations.InstructionsChangeOnlyNamedState := by
  intro i s t h
  cases i with
  | cls | jp | jpVx | ldI | addI | ldF | ldDtVx | ldStVx | ldImm | addImm | ldReg | or | and | xor | ldVxDt | rnd
  | addReg | sub | shr | subn | shl =>
    obtain rfl := Host.Outcome.next.inj h
    simp
  | seImm | sneImm | seReg | sneReg | skp | sknp =>
    obtain rfl := Host.Outcome.next.inj h
    rw [State.skipIf_eq_setPc]
    simp
  | ldVxK => rcases exec_ldVxK_cases h with ⟨-, rfl⟩ | ⟨-, v, rfl⟩ <;> simp
  | drw x y n =>
    obtain ⟨_, _, hall⟩ := s.drawn_exists_eq x y n.toNat
    obtain ⟨_, _, hsome⟩ := s.drawn_exists_eq x y (0x1000 - s.i.toNat)
    rcases exec_drw_cases h with ⟨-, rfl⟩ | ⟨-, rfl⟩
    · simp [hall]
    · simp [hsome]
  | ldRegs x =>
    obtain ⟨_, hloaded⟩ := s.loaded_exists_eq (x.toNat + 1)
    rcases exec_ldRegs_cases h with ⟨-, rfl⟩ | ⟨-, rfl⟩ <;> simp [hloaded]
  | ret => rcases exec_ret_cases h with ⟨-, -, rfl⟩ | ⟨-, rfl⟩ <;> simp
  | call => rcases exec_call_cases h with ⟨-, rfl⟩ | ⟨-, rfl⟩ <;> simp
  | ldB => rcases exec_ldB_cases h with ⟨-, rfl⟩ | ⟨-, rfl⟩ <;> simp [State.stored]
  | stRegs => rcases exec_stRegs_cases h with ⟨-, rfl⟩ | ⟨-, rfl⟩ <;> simp [State.stored]

/-- 10_state R23: the instructions that do not move `pc` beyond the advance of the fetch. -/
theorem exec_pc_of_not_mayMovePc {i : Instr} {s t : State} (h : exec i s = .next t) (hi : ¬ mayMovePc i) :
    t.pc = s.pc := by
  obtain ⟨-, -, -, -, -, -, -, -, -, -, -, hsame⟩ := instructionsChangeOnlyNamedState i s t h
  cases i with
  | ret | jp | call | seImm | sneImm | seReg | sneReg | jpVx | skp | sknp | ldVxK => exact absurd trivial hi
  | _ => apply hsame <;> simp

/-! Raising (60_exceptions R200, R201). -/

/-- The fatal latch is that of `s`. -/
def SameLatch (s t : State) : Prop := t.halted = s.halted ∧ t.errCode = s.errCode ∧ t.errInfo = s.errInfo

theorem State.drawn_sameLatch (s : State) (x y : RegIdx) (rows : Nat) : SameLatch s (s.drawn x y rows) := by
  obtain ⟨_, _, h⟩ := s.drawn_exists_eq x y rows
  rw [h]
  exact ⟨rfl, rfl, rfl⟩

theorem State.loaded_sameLatch (s : State) (n : Nat) : SameLatch s (s.loaded n) := by
  obtain ⟨_, h⟩ := s.loaded_exists_eq n
  rw [h]
  exact ⟨rfl, rfl, rfl⟩

/-- The latch of a running machine is kept, as it should be where the condition `out` for raising does not hold. -/
theorem latch_of_sameLatch {s t : State} {out : Prop} {code : BitVec 3} {info : Word} (hrun : s.halted = false)
    (hsame : SameLatch s t) (hno : ¬ out) :
    (t.halted = false → t.errCode = s.errCode ∧ t.errInfo = s.errInfo) ∧
      (t.halted = true ↔ out) ∧ (t.halted = true → t.errCode = code ∧ t.errInfo = info) := by
  obtain ⟨hhalted, hlatch⟩ := hsame
  have hrun' : ¬ t.halted = true := by rw [hhalted, hrun]; exact Bool.false_ne_true
  exact ⟨fun _ => hlatch, iff_of_false hrun' hno, fun e => absurd e hrun'⟩

/-- The latch is set, as it should be where the condition `out` for raising holds. -/
theorem latch_of_raise {s u : State} {out : Prop} (e : FatalError) (hout : out) :
    ((u.raise e).halted = false → (u.raise e).errCode = s.errCode ∧ (u.raise e).errInfo = s.errInfo) ∧
      ((u.raise e).halted = true ↔ out) ∧
      ((u.raise e).halted = true → (u.raise e).errCode = e.code ∧ (u.raise e).errInfo = e.info) :=
  ⟨fun h => absurd h.symm Bool.false_ne_true, iff_of_true rfl hout, fun _ => ⟨rfl, rfl⟩⟩

/-- Settles O20: the six instructions with an error raise it exactly where their inversion lemma says, and every other
keeps the latch. -/
theorem onlyListedInstructionsRaise : Obligations.OnlyListedInstructionsRaise := by
  intro i s t hrun h
  cases i with
  | cls | jp | jpVx | ldI | addI | ldF | ldDtVx | ldStVx | ldImm | addImm | ldReg | or | and | xor | ldVxDt | rnd
  | addReg | sub | shr | subn | shl =>
    obtain rfl := Host.Outcome.next.inj h
    exact ⟨fun _ => ⟨rfl, rfl⟩, hrun⟩
  | seImm | sneImm | seReg | sneReg | skp | sknp =>
    obtain rfl := Host.Outcome.next.inj h
    rw [State.skipIf_eq_setPc]
    exact ⟨fun _ => ⟨rfl, rfl⟩, hrun⟩
  | ldVxK => rcases exec_ldVxK_cases h with ⟨-, rfl⟩ | ⟨-, v, rfl⟩ <;> exact ⟨fun _ => ⟨rfl, rfl⟩, hrun⟩
  | call =>
    rcases exec_call_cases h with ⟨hsp, rfl⟩ | ⟨hsp, rfl⟩
    · exact latch_of_sameLatch hrun ⟨rfl, rfl, rfl⟩ fun e => by rw [e] at hsp; exact absurd hsp (by decide)
    · exact latch_of_raise (.stackOverflow s.pc) hsp
  | ret =>
    rcases exec_ret_cases h with ⟨hsp, -, rfl⟩ | ⟨hsp, rfl⟩
    · exact latch_of_sameLatch hrun ⟨rfl, rfl, rfl⟩ hsp
    · exact latch_of_raise (.stackUnderflow s.pc) hsp
  | drw x y n =>
    rcases exec_drw_cases h with ⟨hin, rfl⟩ | ⟨⟨h0, hout⟩, rfl⟩
    · refine latch_of_sameLatch hrun (s.drawn_sameLatch x y _) ?_
      rintro ⟨row, hrow, hbad⟩
      rcases hin with rfl | hin
      · exact absurd hrow (Nat.not_lt_zero row)
      · omega
    · have hpos := BitVec.toNat_pos_of_ne_zero h0
      exact latch_of_raise (.memoryBounds s.firstBadAddress) ⟨n.toNat - 1, by omega, by omega⟩
  | ldB =>
    rcases exec_ldB_cases h with ⟨hin, rfl⟩ | ⟨hout, rfl⟩
    · exact latch_of_sameLatch hrun ⟨rfl, rfl, rfl⟩ (by omega)
    · exact latch_of_raise (.memoryBounds s.firstBadAddress) hout
  | stRegs =>
    rcases exec_stRegs_cases h with ⟨hin, rfl⟩ | ⟨hout, rfl⟩
    · exact latch_of_sameLatch hrun ⟨rfl, rfl, rfl⟩ (by omega)
    · exact latch_of_raise (.memoryBounds s.firstBadAddress) hout
  | ldRegs x =>
    rcases exec_ldRegs_cases h with ⟨hin, rfl⟩ | ⟨hout, rfl⟩
    · exact latch_of_sameLatch hrun (s.loaded_sameLatch _) (by omega)
    · exact latch_of_raise (.memoryBounds s.firstBadAddress) hout

/-- A running machine that an instruction halts has one of the three codes. -/
theorem errCode_of_exec_halted {i : Instr} {s t : State} (hrun : s.halted = false) (h : exec i s = .next t)
    (hhalt : t.halted = true) : t.errCode = 1 ∨ t.errCode = 2 ∨ t.errCode = 3 := by
  obtain ⟨-, hraise⟩ := onlyListedInstructionsRaise i s t hrun h
  cases i with
  | call => exact .inr (.inl (hraise.2 hhalt).1)
  | ret => exact .inr (.inr (hraise.2 hhalt).1)
  | drw | ldB | stRegs | ldRegs => exact .inl (hraise.2 hhalt).1
  | _ => cases hhalt.symm.trans hraise

/-- 10_state R24: with `SP` at most 16 every instruction answers a next state. -/
theorem exec_total (i : Instr) {s : State} (h : s.sp.toNat ≤ 16) : ∃ t, exec i s = .next t := by
  have hfinish (p : Progress) : ∃ t, p.finish = .next t := by
    rcases p.finish_cases with ⟨u, -, hu⟩ | ⟨e, u, -, hu⟩ <;> exact ⟨_, hu⟩
  cases i with
  | call nnn =>
    rcases Nat.lt_or_eq_of_le h with hlt | heq
    · exact ⟨_, exec_call_push nnn hlt⟩
    · exact ⟨_, exec_call_full nnn (BitVec.eq_of_toNat_eq heq)⟩
  | ret =>
    by_cases h0 : s.sp = 0
    · exact ⟨_, exec_ret_empty h0⟩
    · exact ⟨_, exec_ret_pop h0 (by omega)⟩
  | ldVxK x =>
    by_cases hk : s.keys = 0
    · exact ⟨_, exec_ldVxK_of_keys_eq_zero x hk⟩
    · obtain ⟨_, -, -, -, hexec⟩ := exec_ldVxK_of_keys_ne_zero x hk
      exact ⟨_, hexec⟩
  | drw | ldB | stRegs | ldRegs => exact hfinish _
  | _ => exact ⟨_, rfl⟩

end Sys2Proof.Machine
end

