-- ==== Sys2Proof/Proofs/Step.lean ====
section
/-! The step (40_flow R120 to R124): guard and fetch in the terms of the statements, the three ways a step ends, and a
word stored at `pc`. -/

namespace Sys2Proof.Machine

theorem State.advance_eq (s : State) : s.advance = { s with pc := s.pc + 2 } := rfl

/-- Settles O1: a fetchable word runs, and only well-formed instructions are decoded. -/
theorem stepRunsDecodedInstruction : Obligations.StepRunsDecodedInstruction := fun _ _ hcan hdec =>
  ⟨wf_of_decodeWord hdec, step_of_insn hcan hdec⟩

/-! The fetch (40_flow R122). -/

/-- 20_memory R66: the first byte is the high one. -/
theorem toNat_wordOfBytes (hi lo : Byte) : (wordOfBytes hi lo).toNat = hi.toNat * 256 + lo.toNat := by
  rw [wordOfBytes, BitVec.toNat_append, ← Nat.shiftLeft_add_eq_or_of_lt lo.isLt, Nat.shiftLeft_eq]

/-- Settles O2: below `0xFFF` both bytes exist, and at `0xFFF` the second does not. -/
theorem fetchIsBigEndianAndAdvances : Obligations.FetchIsBigEndianAndAdvances := by
  intro s hpc
  refine ⟨fun hne => ⟨s.wordAtPc, ?_, toNat_wordOfBytes _ _⟩, fun htop => fetch_top (by rw [htop]; rfl)⟩
  have hne' : s.pc.toNat ≠ 0xFFF := fun e => hne (BitVec.eq_of_toNat_eq e)
  rw [fetch_ok (by omega), s.advance_eq]

/-! Raising before execute (40_flow R121). -/

theorem guardedFetch_of_guardError {s : State} {e : FatalError} (h : guardError s = some e) :
    guardedFetch s = .error e := by
  rw [guardedFetch, h]

theorem guardedFetch_top {s : State} (hpc : s.pc.toNat = 0xFFF) (h : guardError s = none) :
    guardedFetch s = .error (.memoryBounds 0x1000) := by
  rw [guardedFetch, h]
  exact fetch_top hpc

/-- Settles O3: each clause is one answer of the guard, and the last the fetch at `0xFFF`. -/
theorem stepRaisesBeforeExecuteInOrder : Obligations.StepRaisesBeforeExecuteInOrder := by
  intro s hrun
  rcases guardError_cases s with ⟨hpc, hg⟩ | ⟨hpc, hi, hg⟩ | ⟨hpc, hi, hsp, hg⟩ | ⟨hpc, hi, hsp, hg⟩
  · exact ⟨fun _ => step_of_error hrun (guardedFetch_of_guardError hg), by omega, by omega, by omega⟩
  · exact ⟨by omega, fun _ _ => step_of_error hrun (guardedFetch_of_guardError hg), by omega, by omega⟩
  · exact ⟨by omega, by omega, fun _ _ _ => step_of_error hrun (guardedFetch_of_guardError hg), by omega⟩
  · exact ⟨by omega, by omega, by omega, fun htop _ _ => step_of_error hrun (guardedFetch_top htop hg)⟩

/-- Settles O29: without an entry call and return stop, and the guard raises before either. -/
theorem missingStackEntryStopsByName : Obligations.MissingStackEntryStopsByName := by
  intro s
  refine ⟨fun h nnn => exec_call_beyond nnn h, exec_ret_beyond, fun hsp hrun => ?_⟩
  rcases step_cases s hrun with ⟨e, -, hstep⟩ | ⟨⟨-, -, -, hsp'⟩, -⟩ | ⟨⟨-, -, -, hsp'⟩, -⟩
  · exact ⟨_, hstep, rfl⟩
  · omega
  · omega

/-! How a step ends (60_exceptions R200 to R204). -/

theorem stepEnding_of_halted {s t : State} (h : t.halted = true) : stepEnding s t = .fatal t.errCode t.errInfo := by
  rw [stepEnding, if_pos h]

theorem stepEnding_completed {s t : State} (hrun : t.halted = false) (hw : t.warnings = s.warnings) :
    stepEnding s t = .completed := by
  rw [stepEnding, if_neg (by rw [hrun]; exact Bool.false_ne_true), hw]
  cases s.warnings with
  | nil => rfl
  | cons w rest => exact if_neg (by simp)

theorem stepEnding_warned {s t : State} {w : Warning} (hrun : t.halted = false) (hw : t.warnings = w :: s.warnings) :
    stepEnding s t = .warned w := by
  rw [stepEnding, if_neg (by rw [hrun]; exact Bool.false_ne_true), hw]
  exact if_pos rfl

theorem step_of_unknown_eq {s : State} {w : Word} (h : s.canFetch) (hdec : decodeWord s.wordAtPc = .unknown w) :
    step s = .next { s with pc := s.pc + 2, warnings := ⟨s.wordAtPc, s.pc⟩ :: s.warnings } := by
  rw [step_of_unknown h hdec, decodeWord_unknown hdec, execUnknown, State.advance_pc, BitVec.add_sub_cancel]
  rfl

/-- Settles O4: the unknown word runs as the warning of itself. -/
theorem unknownWordOnlyWarns : Obligations.UnknownWordOnlyWarns := by
  intro s w hcan hdec
  exact ⟨_, step_of_unknown_eq hcan hdec, rfl, stepEnding_warned hcan.1 rfl⟩

theorem exec_warnings {i : Instr} {s t : State} (h : exec i s = .next t) : t.warnings = s.warnings := by
  obtain ⟨-, -, hw, -⟩ := instructionsChangeOnlyNamedState i s t h
  exact hw

/-- Settles O5: before execute a step raises; an instruction completes or raises, with the report as it was; an unknown
word warns. -/
theorem stepEndsInOneOfThreeWays : Obligations.StepEndsInOneOfThreeWays := by
  intro s hrun
  rcases step_cases s hrun with ⟨e, -, hstep⟩ | ⟨hcan, i, -, hstep⟩ | ⟨hcan, w, hdec, -⟩
  · refine ⟨_, hstep, .inr (.inr ⟨rfl, rfl, ?_, stepEnding_of_halted rfl⟩)⟩
    cases e <;> simp [FatalError.code]
  · obtain ⟨t, ht⟩ := exec_total i (s := s.advance) hcan.2.2.2
    have hw := exec_warnings ht
    rw [State.advance_warnings] at hw
    refine ⟨t, hstep.trans ht, ?_⟩
    cases hhalt : t.halted with
    | false => exact .inl ⟨rfl, hw, stepEnding_completed hhalt hw⟩
    | true =>
      have hcode := errCode_of_exec_halted (s := s.advance) hrun ht hhalt
      exact .inr (.inr ⟨rfl, hw, hcode, stepEnding_of_halted hhalt⟩)
  · exact ⟨_, step_of_unknown_eq hcan hdec, .inr (.inl ⟨hrun, _, rfl, stepEnding_warned hrun rfl⟩)⟩

/-! A word stored at `pc` (20_memory R66, R74). -/

theorem tableWord_toNat (w : Word) : tableWord 16 w.toNat = w := by
  rw [tableWord, Nat.mod_eq_of_lt w.isLt, BitVec.ofNat_toNat, BitVec.setWidth_eq]

theorem decodeWord_of_decodeTableWord {w : Word} {i : Instr} (h : decodeTableWord 16 w.toNat = some i) :
    decodeWord w = .insn i := by
  rw [decodeTableWord_eq, BitVec.ofNat_toNat, BitVec.setWidth_eq] at h
  cases hdec : decodeWord w with
  | insn j =>
    rw [hdec] at h
    exact congrArg Decoded.insn (Option.some.inj h)
  | unknown u =>
    rw [hdec] at h
    cases h

/-- 20_memory R66: the high byte at `pc`, the low byte after it. -/
theorem State.withFetchWord_eq {s : State} (w : Word) (h : s.pc.toNat < 0xFFF) :
    s.withFetchWord 16 w.toNat = { s with mem := s.mem.writeList s.pc.toNat [highByte w, lowByte w] } := by
  have hin : s.pc.toNat + [highByte w, lowByte w].length ≤ 0x1000 := Nat.succ_le_succ h
  rw [State.withFetchWord, tableWord_toNat, placeWord, storeBytes_running _ _ _ hin]

/-- Settles O13: the two bytes are stored in the order the fetch reads them. -/
theorem storedWordIsFetchedNext : Obligations.StoredWordIsFetchedNext := by
  intro s w hcan hwf
  have hpc := hcan.2.1
  have hread := Memory.read_writeList hwf (a := s.pc.toNat) [highByte w, lowByte w] (Nat.succ_le_succ hpc)
  simp only [List.length_cons, List.length_nil] at hread
  have hword : { s with mem := s.mem.writeList s.pc.toNat [highByte w, lowByte w] }.wordAtPc = w := by
    simp only [State.wordAtPc]
    rw [hread, hread, if_pos (by omega), if_pos (by omega), Nat.sub_self, Nat.add_sub_cancel_left]
    exact wordOfBytes_high_low w
  refine ⟨_, State.withFetchWord_eq w hpc, rfl, hword, fun a h0 h1 => ?frame, fun i hi => ?run⟩
  case frame => rw [hread, if_neg (by omega)]
  case run => exact step_of_insn hcan (by rw [hword]; exact decodeWord_of_decodeTableWord hi)

end Sys2Proof.Machine
end

