-- ==== Sys2Proof/Proofs/Invariant.lean ====
section
/-! The invariant (10_state R22 to R25, R33, 20_memory R60): it holds after `Reset`, every instruction keeps each of its
parts, and so every step and every event keeps it. -/

namespace Sys2Proof.Machine

/-! The canonical form of memory. -/

theorem Memory.wfFrom_cons {lo a : Nat} {v : Byte} {m : Memory} (h : Memory.wfFrom lo ((a, v) :: m) = true) :
    lo ≤ a ∧ v ≠ Memory.initial a ∧ Memory.wfFrom (a + 1) m = true := by
  simp only [Memory.wfFrom, Bool.and_eq_true, decide_eq_true_eq, bne_iff_ne] at h
  obtain ⟨⟨⟨hlo, -⟩, hv⟩, hm⟩ := h
  exact ⟨hlo, hv, hm⟩

theorem Memory.read_head (a : Nat) (v : Byte) (m : Memory) : Memory.read ((a, v) :: m) a = v := if_pos rfl

theorem Memory.read_tail {a b : Nat} (v : Byte) (m : Memory) (h : b ≠ a) : Memory.read ((a, v) :: m) b = m.read b :=
  if_neg h

/-- A cell tells itself apart from what an unlisted address reads as, so the first cells of two memories that read alike
are the same, and then the rests read alike. -/
theorem Memory.ext_of_wfFrom {lo lo' : Nat} {m m' : Memory} (h : Memory.wfFrom lo m = true)
    (h' : Memory.wfFrom lo' m' = true) (hread : ∀ a, m.read a = m'.read a) : m = m' := by
  induction m generalizing lo lo' m' with
  | nil =>
    cases m' with
    | nil => rfl
    | cons c' m' =>
      obtain ⟨-, hv, -⟩ := Memory.wfFrom_cons h'
      exact absurd ((hread c'.1).trans (Memory.read_head ..)).symm hv
  | cons c m ih =>
    obtain ⟨a, v⟩ := c
    obtain ⟨-, hv, hm⟩ := Memory.wfFrom_cons h
    cases m' with
    | nil => exact absurd ((Memory.read_head ..).symm.trans (hread a)) hv
    | cons c' m' =>
      obtain ⟨b, w⟩ := c'
      obtain ⟨-, hw, hm'⟩ := Memory.wfFrom_cons h'
      have hab : a = b := by
        rcases lt_trichotomy a b with hlt | heq | hgt
        · have hbelow := Memory.read_below hm' (show a < b + 1 by omega)
          have := hread a
          rw [Memory.read_head, Memory.read_tail _ _ (by omega), hbelow] at this
          exact absurd this hv
        · exact heq
        · have hbelow := Memory.read_below hm (show b < a + 1 by omega)
          have := hread b
          rw [Memory.read_head, Memory.read_tail _ _ (by omega), hbelow] at this
          exact absurd this.symm hw
      subst hab
      have hvw : v = w := by simpa only [Memory.read_head] using hread a
      have hrest : m = m' := ih hm hm' fun d => by
        by_cases hd : d = a
        · rw [hd, Memory.read_below hm (Nat.lt_succ_self a), Memory.read_below hm' (Nat.lt_succ_self a)]
        · simpa only [Memory.read_tail _ _ hd] using hread d
      rw [hvw, hrest]

/-- Settles O12: by induction on the cells. -/
theorem equalMemoriesAreEqualData : Obligations.EqualMemoriesAreEqualData := fun _ _ => Memory.ext_of_wfFrom

/-! Reset (10_state R36 to R41). -/

theorem resetState_inv {image : List Byte} (draws : Nat) (h : image.length ≤ 3584) : (resetState image draws).Inv where
  memory := Memory.wf_resetState image draws (decide_eq_true h)
  stackPointer := Nat.zero_le 16
  programCounter := by rw [resetState_pc]; decide
  addressRegister := Nat.zero_le _
  returnAddresses k hk := by
    have hzero : (resetState image draws).stack[k] = 0 := Vector.getElem_replicate hk
    rw [hzero]
    exact Nat.zero_le _
  latch := ⟨fun _ => ⟨rfl, rfl⟩, fun h => absurd h Bool.false_ne_true⟩

/-- Settles O14: `State.reset` is the state after `Reset` with an empty image. -/
theorem resetMeetsInvariant : Obligations.ResetMeetsInvariant :=
  ⟨resetState_inv (image := []) 0 (Nat.zero_le _), fun _ draws h => resetState_inv draws h⟩

/-! What every instruction keeps, part by part. -/

section Parts

variable {i : Instr} {s t : State}

theorem exec_keeps_memory (h : exec i s = .next t) (hwf : s.mem.wf = true) : t.mem.wf = true := by
  obtain ⟨-, -, -, -, -, hmem, -⟩ := instructionsChangeOnlyNamedState i s t h
  cases i with
  | ldB => rcases exec_ldB_cases h with ⟨-, rfl⟩ | ⟨-, rfl⟩ <;> exact State.wf_stored hwf _
  | stRegs => rcases exec_stRegs_cases h with ⟨-, rfl⟩ | ⟨-, rfl⟩ <;> exact State.wf_stored hwf _
  | _ => rwa [hmem (by simp) (by simp)]

theorem exec_keeps_stackPointer (h : exec i s = .next t) (hsp : s.sp.toNat ≤ 16) : t.sp.toNat ≤ 16 := by
  obtain ⟨-, -, -, -, -, -, -, -, hstack, -⟩ := instructionsChangeOnlyNamedState i s t h
  cases i with
  | ret =>
    rcases exec_ret_cases h with ⟨h0, -, rfl⟩ | ⟨-, rfl⟩
    · have hpred := State.sp_pred h0
      show (s.sp - 1).toNat ≤ 16
      omega
    · exact hsp
  | call =>
    rcases exec_call_cases h with ⟨hlt, rfl⟩ | ⟨-, rfl⟩
    · show (s.sp + 1).toNat ≤ 16
      have hone : (1 : BitVec 5).toNat = 1 := rfl
      rw [BitVec.toNat_add]
      omega
    · exact hsp
  | _ => rwa [(hstack (by simp) (by simp)).1]

theorem exec_keeps_returnAddresses (h : exec i s = .next t) (hpc : s.pc.toNat ≤ 0x1000)
    (hstack : ∀ (k : Nat) (hk : k < 16), (s.stack[k]).toNat ≤ 0x1000) (k : Nat) (hk : k < 16) :
    (t.stack[k]).toNat ≤ 0x1000 := by
  obtain ⟨-, -, -, -, -, -, -, -, hsame, -⟩ := instructionsChangeOnlyNamedState i s t h
  cases i with
  | ret => rcases exec_ret_cases h with ⟨-, -, rfl⟩ | ⟨-, rfl⟩ <;> exact hstack k hk
  | call =>
    rcases exec_call_cases h with ⟨hlt, rfl⟩ | ⟨-, rfl⟩
    · simp only [Vector.getElem_set]
      split
      · exact hpc
      · exact hstack k hk
    · exact hstack k hk
  | _ => simpa only [(hsame (by simp) (by simp)).2] using hstack k hk

theorem exec_keeps_latch (h : exec i s = .next t) (hrun : s.halted = false) (hlatch : s.latchWf) : t.latchWf := by
  obtain ⟨hsame, -⟩ := onlyListedInstructionsRaise i s t hrun h
  obtain ⟨hcode, hinfo⟩ := hlatch.1 hrun
  refine ⟨fun hrun' => ?_, errCode_of_exec_halted hrun h⟩
  obtain ⟨hcode', hinfo'⟩ := hsame hrun'
  exact ⟨hcode'.trans hcode, hinfo'.trans hinfo⟩

/-- 42_address_memory R161 to R165: from an `I` within memory the largest is that of add-to-address. -/
theorem exec_addressRegister_le (h : exec i s = .next t) (hi : s.i.toNat ≤ 0xFFF) : t.i.toNat ≤ 0x10FE := by
  obtain ⟨-, -, -, -, -, -, -, -, -, hsame, -⟩ := instructionsChangeOnlyNamedState i s t h
  cases i with
  | ldI nnn =>
    obtain rfl := Host.Outcome.next.inj h
    have := nnn.isLt
    rw [State.setI_i, toNat_addressOperand]
    omega
  | addI x =>
    obtain rfl := Host.Outcome.next.inj h
    have := (s.reg x).isLt
    rw [State.setI_i, BitVec.toNat_add, s.toNat_regWord]
    omega
  | ldF x =>
    obtain rfl := Host.Outcome.next.inj h
    have := (s.reg x).isLt
    rw [State.setI_i, s.toNat_glyphAddress]
    omega
  | stRegs x =>
    rcases exec_stRegs_cases h with ⟨hin, rfl⟩ | ⟨-, rfl⟩
    · rw [State.setI_i, State.toNat_i_add_blockLength hin]
      omega
    · exact le_trans hi (by decide)
  | ldRegs x =>
    rcases exec_ldRegs_cases h with ⟨hin, rfl⟩ | ⟨-, rfl⟩
    · rw [State.setI_i, State.toNat_i_add_blockLength hin]
      omega
    · rw [State.raise_i, s.loaded_eq]
      exact le_trans hi (by decide)
  | _ =>
    have hi' : t.i = s.i := by apply hsame <;> simp
    rw [hi']
    exact le_trans hi (by decide)

/-- A skip moves `pc` by at most 2. -/
theorem State.toNat_skipIf_pc_le (s : State) (c : Bool) (hpc : s.pc.toNat ≤ 0x1000) :
    (s.skipIf c).pc.toNat ≤ 0x1002 := by
  have htwo : (2 : Word).toNat = 2 := rfl
  rw [State.skipIf_eq_setPc, State.setPc_pc]
  cases c with
  | false => exact le_trans hpc (by decide)
  | true =>
    rw [if_pos rfl, BitVec.toNat_add]
    omega

/-- 40_flow R126, R132: from a `pc` past a fetched word the largest is that of jump-with-offset. The lower bound is for
the rewind of block-until-key. -/
theorem exec_programCounter_le (h : exec i s = .next t) (hlo : 2 ≤ s.pc.toNat) (hpc : s.pc.toNat ≤ 0x1000)
    (hstack : ∀ (k : Nat) (hk : k < 16), (s.stack[k]).toNat ≤ 0x1000) : t.pc.toNat ≤ 0x10FE := by
  cases i with
  | ret =>
    rcases exec_ret_cases h with ⟨-, hsp, rfl⟩ | ⟨-, rfl⟩
    · exact le_trans (hstack _ hsp) (by decide)
    · exact le_trans hpc (by decide)
  | jp nnn =>
    obtain rfl := Host.Outcome.next.inj h
    have := nnn.isLt
    rw [State.setPc_pc, toNat_addressOperand]
    omega
  | call nnn =>
    rcases exec_call_cases h with ⟨-, rfl⟩ | ⟨-, rfl⟩
    · have := nnn.isLt
      show (addressOperand nnn).toNat ≤ 0x10FE
      rw [toNat_addressOperand]
      omega
    · exact le_trans hpc (by decide)
  | jpVx x nnn =>
    obtain rfl := Host.Outcome.next.inj h
    have := nnn.isLt
    have := (s.reg x).isLt
    rw [State.setPc_pc, s.toNat_regWord_add_addressOperand]
    omega
  | seImm | sneImm | seReg | sneReg | skp | sknp =>
    obtain rfl := Host.Outcome.next.inj h
    exact le_trans (s.toNat_skipIf_pc_le _ hpc) (by decide)
  | ldVxK =>
    rcases exec_ldVxK_cases h with ⟨-, rfl⟩ | ⟨-, v, rfl⟩
    · have htwo : (2 : Word).toNat = 2 := rfl
      rw [State.rewind_pc, BitVec.toNat_sub]
      omega
    · exact le_trans hpc (by decide)
  | _ =>
    rw [exec_pc_of_not_mayMovePc h id]
    exact le_trans hpc (by decide)

end Parts

/-! The step. -/

theorem State.Inv.raise {s : State} (h : s.Inv) (e : FatalError) : (s.raise e).Inv where
  memory := h.memory
  stackPointer := h.stackPointer
  programCounter := h.programCounter
  addressRegister := h.addressRegister
  returnAddresses := h.returnAddresses
  latch := ⟨fun hrun => absurd hrun.symm Bool.false_ne_true, fun _ => by cases e <;> simp [FatalError.code]⟩

/-- Settles O15: where the step reaches execute, the guard and the fetch have bounded `pc`, `I` and `SP`, and the
instruction keeps each part of the invariant. -/
theorem stepKeepsInvariant : Obligations.StepKeepsInvariant := by
  intro s t hinv hstep
  cases hrun : s.halted with
  | true =>
    rw [step_halted hrun] at hstep
    obtain rfl := Host.Outcome.next.inj hstep
    exact hinv
  | false =>
    rcases step_cases s hrun with ⟨e, -, he⟩ | ⟨hcan, i, -, hi⟩ | ⟨hcan, w, hdec, -⟩
    · obtain rfl := Host.Outcome.next.inj (he.symm.trans hstep)
      exact hinv.raise e
    · have hexec : exec i s.advance = .next t := hi.symm.trans hstep
      have hadd : s.advance.pc.toNat = s.pc.toNat + 2 := hcan.toNat_pc_add
      obtain ⟨-, hpc, hI, -⟩ := hcan
      exact {
        memory := exec_keeps_memory hexec hinv.memory
        stackPointer := exec_keeps_stackPointer hexec hinv.stackPointer
        programCounter := exec_programCounter_le hexec (by omega) (by omega) hinv.returnAddresses
        addressRegister := exec_addressRegister_le hexec hI
        returnAddresses := exec_keeps_returnAddresses hexec (by omega) hinv.returnAddresses
        latch := exec_keeps_latch hexec hrun hinv.latch }
    · rw [step_of_unknown_eq hcan hdec] at hstep
      have hadd := hcan.toNat_pc_add
      obtain ⟨-, hpc, -⟩ := hcan
      obtain rfl := Host.Outcome.next.inj hstep
      exact { hinv with programCounter := by show (s.pc + 2).toNat ≤ 0x10FE; omega }

end Sys2Proof.Machine
end

