-- ==== Sys2Proof/Proofs/BlockEvents.lean ====
section
/-! The events of the block (00_scope R9, 60_exceptions R202, R207, R215, R217, 70_reset_and_hazards R240): which take
place, what they keep, and what a `Reset` leaves. -/

namespace Sys2Proof.Machine

/-! Events take place (00_scope R9, 70_reset_and_hazards R246). -/

/-- 40_flow R120: no step faults or refuses. -/
theorem step_total (s : State) : ∃ t, step s = .next t := by
  cases hrun : s.halted with
  | true => exact ⟨s, step_halted hrun⟩
  | false =>
    obtain ⟨t, ht, -⟩ := stepEndsInOneOfThreeWays s hrun
    exact ⟨t, ht⟩

theorem Block.apply_step {s t : State} (h : step s = .next t) :
    Block.apply .step (.on s) = .done (.on t) (.ended (stepEnding s t)) := by
  rw [Block.apply, h]

theorem Block.apply_reset_of_oversize {image : List Byte} (b : Block) (h : 3584 < image.length) :
    Block.apply (.reset image) b = .done b .romTooLarge := by
  have hfits : imageFits image = false := decide_eq_false (Nat.not_le.mpr h)
  rw [Block.apply, hfits]
  rfl

theorem Block.apply_off {e : Event} (h : ∀ image, e ≠ .reset image) : Block.apply e .off = .notDefined := by
  cases e with
  | reset image => exact absurd rfl (h image)
  | _ => rfl

/-- Settles O55: the two ways an event does not take effect. -/
theorem oversizeImageChangesNothing : Obligations.OversizeImageChangesNothing := fun _ b _ =>
  ⟨Block.apply_reset_of_oversize b, Block.apply_off⟩

/-- A block whose state meets the invariant answers every event with such a block. -/
theorem Block.apply_on {s : State} (hinv : s.Inv) (e : Event) :
    ∃ t r, Block.apply e (.on s) = .done (.on t) r ∧ t.Inv := by
  cases e with
  | reset image =>
    rcases Nat.lt_or_ge 3584 image.length with hover | hfits
    · exact ⟨s, _, Block.apply_reset_of_oversize _ hover, hinv⟩
    · exact ⟨_, _, Block.apply_reset_of_fits _ hfits, resetState_inv _ hfits⟩
  | step =>
    obtain ⟨t, ht⟩ := step_total s
    exact ⟨t, _, Block.apply_step ht, stepKeepsInvariant s t hinv ht⟩
  | tick => exact ⟨_, _, Block.apply_tick s, { hinv with }⟩
  | setKeys m => exact ⟨_, _, Block.apply_setKeys m s, { hinv with }⟩
  | clearDirty => exact ⟨_, _, Block.apply_clearDirty s, { hinv with }⟩
  | fbRead => exact ⟨_, _, Block.apply_fbRead s, hinv⟩

/-- Settles O16: a block that is on keeps the invariant, and one that is off gets it from a `Reset`. -/
theorem eventsKeepInvariant : Obligations.EventsKeepInvariant := by
  intro e b b' r hinv happly
  cases b with
  | on s =>
    obtain ⟨t, _, ht, hinv'⟩ := Block.apply_on hinv e
    obtain ⟨rfl, -⟩ := EventOutcome.done.inj (ht.symm.trans happly)
    exact hinv'
  | off =>
    cases e with
    | reset image =>
      rcases Nat.lt_or_ge 3584 image.length with hover | hfits
      · obtain ⟨rfl, -⟩ := EventOutcome.done.inj ((Block.apply_reset_of_oversize .off hover).symm.trans happly)
        exact trivial
      · obtain ⟨rfl, -⟩ := EventOutcome.done.inj ((Block.apply_reset_of_fits .off hfits).symm.trans happly)
        exact resetState_inv _ hfits
    | _ => cases happly

theorem Block.applyAll_on {s : State} (hinv : s.Inv) (es : List Event) :
    ∃ t, Block.applyAll es (.on s) = some (.on t) ∧ t.Inv := by
  induction es generalizing s with
  | nil => exact ⟨s, rfl, hinv⟩
  | cons e es ih =>
    obtain ⟨u, r, hu, hinv'⟩ := Block.apply_on hinv e
    rw [Block.applyAll, hu]
    exact ih hinv'

/-- Settles O17: the state a `Reset` leaves meets the invariant, and with it every event takes place. -/
theorem everyEventSequenceTakesPlace : Obligations.EveryEventSequenceTakesPlace := by
  intro image b es hfits
  rw [Block.applyAll, Block.apply_reset_of_fits b hfits]
  exact Block.applyAll_on (resetState_inv _ hfits) es

/-! The halted block (60_exceptions R202, R217). -/

/-- Settles O54: a halted step is the identity, and each other event writes the fields named. -/
theorem haltedBlockIsAbsorbing : Obligations.HaltedBlockIsAbsorbing := by
  intro s e hhalt hreset
  have hstep : Block.apply .step (.on s) = .done (.on s) (.ended (.fatal s.errCode s.errInfo)) := by
    rw [Block.apply_step (step_halted hhalt), stepEnding_of_halted hhalt]
  refine ⟨hstep, ?_⟩
  cases e with
  | reset image => exact absurd rfl (hreset image)
  | step => exact ⟨s, _, hstep, rfl⟩
  | tick => exact ⟨_, _, Block.apply_tick s, tick_eq s⟩
  | setKeys m => exact ⟨_, _, Block.apply_setKeys m s, setKeys_eq m s⟩
  | clearDirty => exact ⟨_, _, Block.apply_clearDirty s, clearDirty_eq s⟩
  | fbRead => exact ⟨s, _, Block.apply_fbRead s, rfl⟩

/-! Ticks (60_exceptions R207). -/

theorem toNat_iterate_tick_st (s : State) (k : Nat) : (tick^[k] s).st.toNat = s.st.toNat - k := by
  induction k with
  | zero => rfl
  | succ k ih => rw [Function.iterate_succ_apply', toNat_tick_st, ih, Nat.sub_sub]

/-- Settles O51: the tone after a tick tests the timer before it, which has counted down `k` times. -/
theorem toneLastsAsManyTicks : Obligations.ToneLastsAsManyTicks := by
  intro s k
  refine ⟨toNat_iterate_tick_st s (k + 1), ?_⟩
  rw [Function.iterate_succ_apply', tick_tone_iff, toNat_iterate_tick_st]
  exact Nat.sub_pos_iff_lt

/-! What a `Reset` leaves (10_state R37 to R40, 20_memory R62). -/

/-- Settles O57: the memory is that of the image over the reset contents, whose glyph bytes are computed digit by digit;
every other piece is a zero of `State.reset`. -/
theorem resetLeavesGlyphsImageAndZeros : Obligations.ResetLeavesGlyphsImageAndZeros := by
  intro image b hfits
  have hmem := resetState_mem_read (image := image) b.draws hfits
  refine ⟨_, Block.apply_reset_of_fits b hfits, fun a _ => ?memory, fun d hd => ?glyphs, fun k => ?registers, rfl, rfl,
    fun k hk => ?stack, rfl, rfl, rfl, fun r c _ _ => ?pixels, rfl, rfl, rfl, rfl, rfl, rfl, rfl⟩
  case memory => rw [hmem, Memory.initial_eq]
  case glyphs =>
    have hbelow (k : Nat) (hk : k ∈ List.range 5) :
        (resetState image b.draws).mem.read (0x050 + 5 * d + k) = Memory.initial (0x050 + 5 * d + k) := by
      rw [List.mem_range] at hk
      rw [hmem, if_neg (by omega)]
    rw [List.map_congr_left hbelow]
    clear hbelow
    revert d
    decide
  case registers => exact Vector.getElem_replicate k.isLt
  case stack => exact Vector.getElem_replicate hk
  case pixels => exact (resetState image b.draws).pixel_clearFb r c

end Sys2Proof.Machine
end

