-- ==== Sys2Proof/Proofs/Runs.lean ====
section
/-! Runs of more than one step (40_flow R133, 44_keys_timers R192, 70_reset_and_hazards R242, R245, R249): the fixed
points of the step, and the instructions that leave `pc` or `I` above `0xFFF` for the next guard to find. -/

namespace Sys2Proof.Machine

/-! Fixed points of the step. -/

theorem run_of_step_eq {s : State} (h : step s = .next s) (n : Nat) : Sys2Proof.core.run n s = .next s := by
  have hcore : Sys2Proof.core.step s = .next s := h
  induction n with
  | zero => rfl
  | succ n ih => simpa only [Host.Core.run, hcore] using ih

theorem State.rewind_advance (s : State) : s.advance.rewind = s := by
  have hpc : s.pc + 2 - 2 = s.pc := BitVec.add_sub_cancel _ _
  show { s with pc := s.pc + 2 - 2 } = s
  rw [hpc]

/-- Settles O48: the rewind undoes the advance of the fetch. -/
theorem blockUntilKeySpins : Obligations.BlockUntilKeySpins := by
  intro s x n hcan hdec hkeys
  refine run_of_step_eq ?_ n
  rw [step_of_insn hcan hdec, exec_ldVxK_of_keys_eq_zero (s := s.advance) x hkeys, s.rewind_advance]

/-- 30_encoding R93: the word of a jump, its digits written as one number. -/
theorem encode_jp (a : Addr12) : encode (.jp a) = 0x1000 ||| a.setWidth 16 := rfl

/-- Settles O58: the jump sets `pc` back to where it stands. -/
theorem jumpToSelfIsAFixedPoint : Obligations.JumpToSelfIsAFixedPoint := by
  intro s a n hcan hpc hword
  have hdec : decodeWord s.wordAtPc = .insn (.jp a) := by
    rw [hword, ← encode_jp]
    exact decodeOfEncodeIsTheInstruction (.jp a) rfl
  refine run_of_step_eq ?_ n
  rw [step_of_insn hcan hdec, exec_jp, addressOperand, ← hpc]
  rfl

/-! `I` above `0xFFF` (40_flow R133). -/

/-- After a sequential advance that leaves `I` out of bounds the guard reports `I`, or `pc` where that has left memory
too. -/
theorem State.canFetch.raisesBounds_address {s t : State} (h : s.canFetch) (hrun : t.halted = false)
    (hpc : t.pc = s.pc + 2) (hi : 0xFFF < t.i.toNat) : t.raisesBounds (if s.pc = 0xFFE then 0x1000 else t.i) := by
  by_cases htop : s.pc = 0xFFE
  · have ht : t.pc = 0x1000 := by rw [hpc, htop]; rfl
    rw [if_pos htop, ← ht]
    exact State.raisesBounds_pc hrun (by rw [ht]; decide)
  · have hne : s.pc.toNat ≠ 0xFFE := fun e => htop (BitVec.eq_of_toNat_eq e)
    have hadd := h.toNat_pc_add
    have hlt := h.2.1
    rw [if_neg htop]
    exact State.raisesBounds_i hrun (by rw [hpc]; omega) hi

/-- 42_address_memory R164, R165: past a block that ends at the last byte of memory. -/
theorem State.i_add_blockLength_top {s : State} {x : RegIdx} (h : s.i.toNat + x.toNat = 0xFFF) :
    s.i + blockLength x = 0x1000 :=
  BitVec.eq_of_toNat_eq (by rw [State.toNat_i_add_blockLength (by omega), h]; rfl)

/-- Settles O59: each of the three completes with `I` out of bounds after a sequential advance. -/
theorem outOfRangeAddressFaultsNextStep : Obligations.OutOfRangeAddressFaultsNextStep := by
  intro s x hcan
  have hrun := hcan.1
  refine ⟨fun hdec hout => ?addI, fun hdec htop => ?stRegs, fun hdec htop => ?ldRegs⟩
  case addI =>
    have hsum : (s.i + s.regWord x).toNat = s.i.toNat + (s.reg x).toNat := by
      have hi := hcan.2.2.1
      have := (s.reg x).isLt
      rw [BitVec.toNat_add, s.toNat_regWord]
      omega
    exact ⟨_, (step_of_insn hcan hdec).trans (exec_addI x s.advance), rfl, hsum,
      hcan.raisesBounds_address hrun rfl (hout.trans_eq hsum.symm)⟩
  case stRegs =>
    have hexec := exec_stRegs_of_le (s := s.advance) x htop.le
    rw [State.i_add_blockLength_top (s := s.advance) htop] at hexec
    refine ⟨_, (step_of_insn hcan hdec).trans hexec, rfl, ?_⟩
    simpa only [State.setI_i, ite_self] using
      hcan.raisesBounds_address (t := (s.advance.stored _).setI 0x1000) hrun rfl (Nat.lt_succ_self 0xFFF)
  case ldRegs =>
    have hexec := exec_ldRegs_of_le (s := s.advance) x htop.le
    rw [State.i_add_blockLength_top (s := s.advance) htop, s.advance.loaded_eq] at hexec
    refine ⟨_, (step_of_insn hcan hdec).trans hexec, rfl, ?_⟩
    simpa only [State.setI_i, ite_self] using
      hcan.raisesBounds_address (t := State.setI { s.advance with x := _ } 0x1000) hrun rfl (Nat.lt_succ_self 0xFFF)

/-! `pc` above `0xFFF` (40_flow R133). -/

/-- A step that reads an instruction which does not move `pc`, or an unknown word, advances `pc` sequentially. -/
theorem step_pc_of_sequential {s t : State} {x : RegIdx} (hcan : s.canFetch) (hstep : step s = .next t)
    (h : (∃ w, decodeWord s.wordAtPc = .unknown w) ∨
      ∃ i, decodeWord s.wordAtPc = .insn i ∧ (¬ mayMovePc i ∨ (i = .ldVxK x ∧ s.keys ≠ 0))) :
    t.pc = s.pc + 2 := by
  rcases h with ⟨w, hdec⟩ | ⟨i, hdec, hi⟩
  · rw [step_of_unknown_eq hcan hdec] at hstep
    obtain rfl := Host.Outcome.next.inj hstep
    rfl
  · rw [step_of_insn hcan hdec] at hstep
    rcases hi with hi | ⟨rfl, hkeys⟩
    · exact exec_pc_of_not_mayMovePc hstep hi
    · rcases exec_ldVxK_cases hstep with ⟨hnone, -⟩ | ⟨-, v, rfl⟩
      · exact absurd hnone hkeys
      · rfl

theorem State.stepsToPc_of_step {s : State} {p : Word} (hrun : s.halted = false)
    (hstep : step s = .next { s with pc := p }) : s.stepsToPc p :=
  ⟨hstep, fun hout => State.raisesBounds_pc (s := { s with pc := p }) hrun hout⟩

/-- A skip, seen from the state before the fetch: 4 further where its test decides `p` and `p` holds, else 2. -/
theorem State.skipIf_advance (s : State) {c : Bool} {p : Prop} [Decidable p] (h : c = true ↔ p) :
    s.advance.skipIf c = { s with pc := s.pc + if p then 4 else 2 } := by
  have hfour : s.pc + 2 + 2 = s.pc + 4 := BitVec.add_assoc s.pc 2 2
  rw [State.skipIf_eq_ite _ h]
  by_cases hp : p
  · rw [if_pos hp, if_pos hp, ← hfour]
    rfl
  · rw [if_neg hp, if_neg hp]
    rfl

/-- A fetched skip whose test decides `p`. -/
theorem State.stepsToPc_of_skip {s : State} {i : Instr} {c : Bool} {p : Prop} [Decidable p] (hcan : s.canFetch)
    (hdec : decodeWord s.wordAtPc = .insn i) (hexec : exec i s.advance = .next (s.advance.skipIf c))
    (h : c = true ↔ p) : s.stepsToPc (s.pc + if p then 4 else 2) :=
  State.stepsToPc_of_step hcan.1 (by rw [step_of_insn hcan hdec, hexec, s.skipIf_advance h])

/-- The same for a skip whose test decides that `p` fails. -/
theorem State.stepsToPc_of_skip_not {s : State} {i : Instr} {c : Bool} {p : Prop} [Decidable p] (hcan : s.canFetch)
    (hdec : decodeWord s.wordAtPc = .insn i) (hexec : exec i s.advance = .next (s.advance.skipIf c))
    (h : c = true ↔ ¬ p) : s.stepsToPc (s.pc + if p then 2 else 4) := by
  have hsteps := State.stepsToPc_of_skip hcan hdec hexec h
  rwa [ite_not] at hsteps

/-- Settles O60: each completes with the `pc` named, and the guard of the next step finds it out of bounds. -/
theorem outOfRangePcFaultsNextStep : Obligations.OutOfRangePcFaultsNextStep := by
  intro s x y nn nnn hcan
  have hkey := s.key_keyOperand x
  refine ⟨fun t htop hstep hrun hseq => ?sequential, fun hdec => ?seImm, fun hdec => ?sneImm, fun hdec => ?seReg,
    fun hdec => ?sneReg, fun hdec => ?skp, fun hdec => ?sknp, fun hdec => ?jpVx, fun hdec h h0 => ?ret⟩
  case sequential =>
    have hpc : t.pc = 0x1000 := by rw [step_pc_of_sequential hcan hstep hseq, htop]; rfl
    refine ⟨hpc, ?_⟩
    rw [← hpc]
    exact State.raisesBounds_pc hrun (by rw [hpc]; decide)
  case seImm => exact State.stepsToPc_of_skip hcan hdec (exec_seImm x nn s.advance) beq_iff_eq
  case sneImm => exact State.stepsToPc_of_skip_not hcan hdec (exec_sneImm x nn s.advance) bne_iff_ne
  case seReg => exact State.stepsToPc_of_skip hcan hdec (exec_seReg x y s.advance) beq_iff_eq
  case sneReg => exact State.stepsToPc_of_skip_not hcan hdec (exec_sneReg x y s.advance) bne_iff_ne
  case skp => exact State.stepsToPc_of_skip hcan hdec (exec_skp x s.advance) (Bool.eq_iff_iff.mp hkey)
  case sknp =>
    refine State.stepsToPc_of_skip_not hcan hdec (exec_sknp x s.advance) ?_
    rw [Bool.not_eq_true', Bool.not_eq_true]
    exact Eq.congr_left hkey
  case jpVx =>
    refine ⟨_, s.toNat_regWord_add_addressOperand x nnn, State.stepsToPc_of_step hcan.1 ?_⟩
    rw [step_of_insn hcan hdec, exec_jpVx]
    rfl
  case ret =>
    exact ⟨_, (step_of_insn hcan hdec).trans (exec_ret_pop (s := s.advance) h0 h), rfl,
      fun hout => State.raisesBounds_pc hcan.1 hout⟩

end Sys2Proof.Machine
end

