-- ==== Sys2Proof/Proofs/Outputs.lean ====
section
/-! Outputs are not read (10_state R27, R28, R31, R35, 60_exceptions R204): every operation gives on a state with other
outputs what it gives on the state, with outputs of its own. -/

namespace Sys2Proof.Machine

/-- What no program reads: `ST`, `tone`, `dirty` and the report of warnings. -/
structure Outputs where
  /-- The sound timer. -/
  st : Byte
  /-- The tone level. -/
  tone : Bool
  /-- The dirty flag. -/
  dirty : Bool
  /-- The report of warnings. -/
  warnings : List Warning

/-- The state with other outputs. -/
def State.withOutputs (s : State) (o : Outputs) : State :=
  { s with st := o.st, tone := o.tone, dirty := o.dirty, warnings := o.warnings }

/-! The operations that branch or recur. -/

theorem State.skipIf_withOutputs (s : State) (o : Outputs) (c : Bool) :
    (s.withOutputs o).skipIf c = (s.skipIf c).withOutputs o := by
  cases c <;> rfl

theorem State.setRegs_withOutputs (s : State) (o : Outputs) (k : Nat) (vs : List Byte) :
    (s.withOutputs o).setRegs k vs = (s.setRegs k vs).withOutputs o := by
  induction vs generalizing s k with
  | nil => rfl
  | cons v vs ih => exact ih (s.setReg (BitVec.ofNat 4 k) v) (k + 1)

theorem State.drawPixel_withOutputs (s : State) (o : Outputs) (r c : Nat) (bit : Bool) :
    (s.withOutputs o).drawPixel r c bit = (s.drawPixel r c bit).withOutputs o := by
  have hlit : (s.withOutputs o).pixel r c = s.pixel r c := rfl
  unfold State.drawPixel
  simp only [hlit]
  by_cases hset : (bit && s.pixel r c) = true
  · rw [if_pos hset, if_pos hset]
    rfl
  · rw [if_neg hset, if_neg hset]
    rfl

theorem State.drawBits_withOutputs (s : State) (o : Outputs) (b : Byte) (r vx n bit : Nat) :
    State.drawBits b r vx n bit (s.withOutputs o) = (State.drawBits b r vx n bit s).withOutputs o := by
  induction n generalizing s bit with
  | zero => rfl
  | succ n ih => rw [State.drawBits, State.drawPixel_withOutputs, ih, State.drawBits]

theorem State.afterRows_withOutputs (s : State) (o : Outputs) (vx vy n row : Nat) :
    (s.withOutputs o).afterRows vx vy n row = (s.afterRows vx vy n row).withOutputs o := by
  induction n generalizing s row with
  | zero => rfl
  | succ n ih =>
    have hmem : (s.withOutputs o).mem = s.mem := rfl
    have hi : (s.withOutputs o).i = s.i := rfl
    rw [State.afterRows, State.drawBits_withOutputs, ih, State.afterRows, hmem, hi]

theorem State.loaded_withOutputs (s : State) (o : Outputs) (n : Nat) :
    (s.withOutputs o).loaded n = (s.loaded n).withOutputs o := s.setRegs_withOutputs o 0 _

theorem State.drawn_withOutputs (s : State) (o : Outputs) (x y : RegIdx) (rows : Nat) :
    (s.withOutputs o).drawn x y rows = (s.drawn x y rows).withOutputs o :=
  (s.setFlag false).afterRows_withOutputs o _ _ rows 0

theorem State.pressedFrom_withOutputs (s : State) (o : Outputs) (n k : Nat) :
    (s.withOutputs o).pressedFrom n k = s.pressedFrom n k := by
  induction n generalizing k with
  | zero => rfl
  | succ n ih =>
    have hkey : (s.withOutputs o).key k = s.key k := rfl
    rw [State.pressedFrom, State.pressedFrom, ih, hkey]

/-! The instructions and the step. -/

theorem exec_withOutputs {i : Instr} {s t : State} (h : exec i s = .next t) (o : Outputs) :
    ∃ o', exec i (s.withOutputs o) = .next (t.withOutputs o') := by
  cases i with
  | seImm | sneImm | seReg | sneReg | skp | sknp =>
    obtain rfl := Host.Outcome.next.inj h
    exact ⟨o, congrArg Host.Outcome.next (s.skipIf_withOutputs o _)⟩
  | ldStVx x =>
    obtain rfl := Host.Outcome.next.inj h
    exact ⟨{ o with st := s.reg x }, rfl⟩
  | cls =>
    obtain rfl := Host.Outcome.next.inj h
    exact ⟨{ o with dirty := true }, rfl⟩
  | drw x y n =>
    rcases exec_drw_cases h with ⟨hin, rfl⟩ | ⟨⟨h0, hout⟩, rfl⟩
    · refine ⟨{ o with dirty := true }, ?_⟩
      rw [exec_drw_of_le (s := s.withOutputs o) x y hin, State.drawn_withOutputs]
      rfl
    · refine ⟨o, ?_⟩
      rw [exec_drw_of_lt (s := s.withOutputs o) x y h0 hout, State.drawn_withOutputs]
      rfl
  | ldRegs x =>
    refine ⟨o, ?_⟩
    rcases exec_ldRegs_cases h with ⟨hin, rfl⟩ | ⟨hout, rfl⟩
    · rw [exec_ldRegs_of_le (s := s.withOutputs o) x hin, State.loaded_withOutputs]
      rfl
    · rw [exec_ldRegs_of_lt (s := s.withOutputs o) x hout, State.loaded_withOutputs]
      rfl
  | ldB x =>
    rcases exec_ldB_cases h with ⟨hin, rfl⟩ | ⟨hout, rfl⟩
    · exact ⟨o, exec_ldB_of_le (s := s.withOutputs o) x hin⟩
    · exact ⟨o, exec_ldB_of_lt (s := s.withOutputs o) x hout⟩
  | stRegs x =>
    rcases exec_stRegs_cases h with ⟨hin, rfl⟩ | ⟨hout, rfl⟩
    · exact ⟨o, exec_stRegs_of_le (s := s.withOutputs o) x hin⟩
    · exact ⟨o, exec_stRegs_of_lt (s := s.withOutputs o) x hout⟩
  | call nnn =>
    rcases exec_call_cases h with ⟨hsp, rfl⟩ | ⟨hsp, rfl⟩
    · exact ⟨o, exec_call_push (s := s.withOutputs o) nnn hsp⟩
    · exact ⟨o, exec_call_full (s := s.withOutputs o) nnn hsp⟩
  | ret =>
    rcases exec_ret_cases h with ⟨h0, hsp, rfl⟩ | ⟨hsp, rfl⟩
    · exact ⟨o, exec_ret_pop (s := s.withOutputs o) h0 hsp⟩
    · exact ⟨o, exec_ret_empty (s := s.withOutputs o) hsp⟩
  | ldVxK x =>
    have hsame : (s.withOutputs o).lowestKey = s.lowestKey := s.pressedFrom_withOutputs o 16 0
    refine ⟨o, ?_⟩
    cases hkey : s.lowestKey with
    | none =>
      rw [exec_ldVxK_none x hkey] at h
      obtain rfl := Host.Outcome.next.inj h
      exact exec_ldVxK_none x (hsame.trans hkey)
    | some k =>
      rw [exec_ldVxK_some x hkey] at h
      obtain rfl := Host.Outcome.next.inj h
      exact exec_ldVxK_some x (hsame.trans hkey)
  | _ =>
    obtain rfl := Host.Outcome.next.inj h
    exact ⟨o, rfl⟩

/-- What guard and fetch raise is raised by the guard, or by the fetch at `0xFFF`. -/
theorem guardedFetch_error_cases {s : State} {e : FatalError} (h : guardedFetch s = .error e) :
    guardError s = some e ∨ (guardError s = none ∧ s.pc.toNat = 0xFFF ∧ e = .memoryBounds 0x1000) := by
  cases hg : guardError s with
  | some e' =>
    rw [guardedFetch_of_guardError hg] at h
    exact .inl (congrArg some (Except.error.inj h))
  | none =>
    have hpc : s.pc.toNat ≤ 0xFFF := by
      rcases guardError_cases s with ⟨-, hs⟩ | ⟨hpc, -⟩ | ⟨hpc, -⟩ | ⟨hpc, -⟩
      · cases hg.symm.trans hs
      all_goals exact hpc
    rcases Nat.lt_or_eq_of_le hpc with hlt | htop
    · rw [guardedFetch, hg] at h
      cases (fetch_ok hlt).symm.trans h
    · rw [guardedFetch_top htop hg] at h
      exact .inr ⟨rfl, htop, (Except.error.inj h).symm⟩

theorem guardedFetch_withOutputs {s : State} {e : FatalError} (h : guardedFetch s = .error e) (o : Outputs) :
    guardedFetch (s.withOutputs o) = .error e := by
  rcases guardedFetch_error_cases h with hg | ⟨hg, hpc, rfl⟩
  · exact guardedFetch_of_guardError (s := s.withOutputs o) hg
  · exact guardedFetch_top (s := s.withOutputs o) hpc hg

theorem step_withOutputs {s t : State} (h : step s = .next t) (o : Outputs) :
    ∃ o', step (s.withOutputs o) = .next (t.withOutputs o') := by
  cases hrun : s.halted with
  | true =>
    rw [step_halted hrun] at h
    obtain rfl := Host.Outcome.next.inj h
    exact ⟨o, step_halted (s := s.withOutputs o) hrun⟩
  | false =>
    rcases step_cases s hrun with ⟨e, herr, hstep⟩ | ⟨hcan, i, hdec, hstep⟩ | ⟨hcan, w, hdec, hstep⟩
    · obtain rfl := Host.Outcome.next.inj (hstep.symm.trans h)
      exact ⟨o, step_of_error (s := s.withOutputs o) hrun (guardedFetch_withOutputs herr o)⟩
    · obtain ⟨o', ho'⟩ := exec_withOutputs (hstep.symm.trans h) o
      exact ⟨o', (step_of_insn (s := s.withOutputs o) hcan hdec).trans ho'⟩
    · rw [step_of_unknown_eq hcan hdec] at h
      obtain rfl := Host.Outcome.next.inj h
      exact ⟨{ o with warnings := _ }, step_of_unknown_eq (s := s.withOutputs o) hcan hdec⟩

/-- Settles O21: the second state is the first with other outputs. -/
theorem outputsAreNotReadByPrograms : Obligations.OutputsAreNotReadByPrograms := by
  intro s s' t hs' h
  have hwith : s' = s.withOutputs ⟨s'.st, s'.tone, s'.dirty, s'.warnings⟩ := hs'
  obtain ⟨o', ho'⟩ := step_withOutputs h ⟨s'.st, s'.tone, s'.dirty, s'.warnings⟩
  rw [← hwith] at ho'
  exact ⟨_, ho', rfl⟩

end Sys2Proof.Machine
end
